-- ==== Sys2Proof/Word.lean ====
section
/-! DEFINITION. The word types of CORE (spec/00_scope.md R6, R7): a byte, a program-counter value, a register index. -/

namespace Sys2Proof

/-- A byte: registers, memory cells, FL, opcodes and operands (R6 `XLEN`, R7). Bit 0 is the least significant. -/
abbrev Byte := BitVec 8

/-- A program-counter value: 9 bits (R6, R26). The values 257..511 occur in no run (log 4). -/
abbrev Pc := BitVec 9

/-- A valid register index, 0..7 (R21). An operand BYTE that names a register is a `Byte`, checked by the meaning. -/
abbrev Reg := Fin 8

end Sys2Proof
end

