-- ==== Sys2Proof/Config.lean ====
section
/-! DEFINITION. The fixed parameters of CORE (spec/00_scope.md R6) and the one open parameter, the host's exit codes
(spec/60_exceptions.md R148, decision D23). -/

namespace Sys2Proof

/-- `MEM_SIZE`: addresses are 0..255 (R6, R40). -/
abbrev Config.memSize : Nat := 256

/-- `NREG`: register indices are 0..7 (R6, R21). -/
abbrev Config.numRegs : Nat := 8

/-- `SP_INDEX`: register 7 is the stack pointer (R6, R22). -/
abbrev Config.spIndex : Reg := 7

/-- `SP_INIT`: the initial top of the stack and the upper limit of pop (R6, R34, R101). -/
abbrev Config.spInit : Byte := 0xF4#8

/-- What r0..r6 hold at reset (R34, the spec's decision D4; log 11). -/
abbrev Config.resetRegister : Byte := 0x00#8

/-- What FL holds at reset (R34, the spec's decision D3; log 11). -/
abbrev Config.resetFlags : Byte := 0x00#8

/-- The reset entry point and initial pc (R6, R34). -/
abbrev Config.initialPc : Pc := 0#9

/-- The load address of the program image (R6, R161). -/
abbrev Config.loadAddress : Nat := 0

/-- What a byte of memory that nothing has written reads as: memory is "zero-initialized" (R34, R40). -/
abbrev Config.unwrittenByte : Byte := 0x00#8

/-- The host's process exit code for a halted run, left open by R148 (D23, I14; log 7). -/
opaque Config.successExitCode : Int

/-- The host's choice behind the exit code of a faulted run, left open by R148 (D23, I14; log 7). -/
opaque Config.faultExitChoice : Int

end Sys2Proof
end

