-- ==== Sys2Proof/Machine/State.lean ====
section
/-! DEFINITION. The architectural state of CORE (spec/10_state.md R20), the fault causes (spec/60_exceptions.md R130), the
reasons a step can stop, and the state after reset (R34). -/

namespace Sys2Proof.Machine

/-- The fault causes of R130. -/
inductive Cause where
  /-- Code 1: an address outside 0..255 (R131). -/
  | outOfBounds
  /-- Code 2: a register index outside 0..7 (R132). -/
  | invalidRegister
  /-- Code 3: an ALU op outside ADD, MUL, CMP; no instruction raises it (R133). -/
  | unsupportedOperation
  /-- Code 4: an opcode outside R64 (R134). -/
  | illegalInstruction
  /-- Code 5: a push at SP = 0 (R135). -/
  | stackOverflow
  /-- Code 6: a pop at SP >= 0xF4 (R136). -/
  | stackUnderflow
  deriving DecidableEq, Repr

/-- What `raise E(info)` carries (R8): the cause and the failing address, register index, opcode, op or SP (R138). -/
structure Trap where
  cause : Cause
  info : Nat
  deriving DecidableEq, Repr

/-- The run state RUN (R31). -/
inductive RunState where
  /-- The only state in which an instruction is executed. -/
  | running
  /-- Entered by HALT; terminal. -/
  | halted
  /-- Entered by any fault; terminal. `fpc` is the pc of the instruction that faulted (R138). -/
  | faulted (cause : Cause) (fpc : Pc) (info : Nat)
  deriving DecidableEq, Repr

/-- Memory as the list of the cells whose byte is not what an unlisted address reads as. -/
abbrev Memory := List Host.Cell

/-- Addresses strictly rising from `lo` on, inside the address space, no listed byte equal to the unlisted one. -/
def Memory.wfFrom (lo : Nat) : Memory → Bool
  | [] => true
  | (a, v) :: rest =>
    decide (lo ≤ a) && decide (a < Config.memSize) && decide (v ≠ Config.unwrittenByte) && Memory.wfFrom (a + 1) rest

/-- The canonical form of memory: equal memories are equal lists. -/
def Memory.wf (m : Memory) : Bool := Memory.wfFrom 0 m

/-- The state tuple of R20: MEM, x, pc, FL, RUN, OUT. "Nothing else is state." -/
structure State where
  /-- MEM, 256 bytes (R40). -/
  mem : Memory
  /-- The register file r0..r7; r7 is SP (R21, R22). -/
  x : Vector Byte 8
  /-- The program counter (R26). -/
  pc : Pc
  /-- The flags register, 00000LGE (R28). -/
  fl : Byte
  /-- The run state (R31). -/
  run : RunState
  /-- OUT, the bytes PRINT has emitted, oldest first (R32). -/
  out : List Byte
  deriving DecidableEq, Repr

/-- Why `step` has no next state. Raised by `step` alone, never by an instruction's meaning: a fault of the SPEC is a next
state whose RUN is Faulted (R140; log 2). -/
inductive Fault where
  /-- RUN is Halted: "the core has no step" (R147). Safe (log 1). -/
  | coreHalted
  /-- RUN is Faulted: "the core has no step" (R147). Safe (log 1). -/
  | coreFaulted
  deriving DecidableEq, Repr

/-- Why an instruction has no meaning. Every instruction of this model has one, so no arm raises it. -/
inductive Refusal where
  /-- Raised by an arm of `exec` that is not modelled yet; safe. -/
  | notModelled (mnemonic : String)
  deriving DecidableEq, Repr

/-- The state after reset, before any image is loaded (R34, R160). -/
def State.reset : State where
  mem := []
  x := #v[Config.resetRegister, Config.resetRegister, Config.resetRegister, Config.resetRegister,
    Config.resetRegister, Config.resetRegister, Config.resetRegister, Config.spInit]
  pc := Config.initialPc
  fl := Config.resetFlags
  run := .running
  out := []

end Sys2Proof.Machine
end

