-- ==== Sys2Proof/Machine/Ops.lean ====
section
/-! DEFINITION. The primitives of spec/00_scope.md R8 over registers, memory, the stack, pc, OUT and RUN, and taking a
fault. A primitive that can raise answers `Except Trap`: the state it was given is still at hand, so nothing has to be undone
(spec/60_exceptions.md R139, R142). There is no return from a fault (R141), so none stands beside `State.raise`. -/

namespace Sys2Proof.Machine

/-! ### Registers (spec/10_state.md R21, R22, R25) -/

/-- `x[r]` (R21). -/
def State.reg (s : State) (r : Reg) : Byte := s.x[r]

/-- `x[r] <- v` (R21): exact, and no other register changes (R25). -/
def State.setReg (s : State) (r : Reg) (v : Byte) : State := { s with x := s.x.set r v }

/-- `SP`, another name for `x[7]` (R22). -/
def State.sp (s : State) : Byte := s.reg Config.spIndex

/-- `SP <- v` (R22). -/
def State.setSp (s : State) (v : Byte) : State := s.setReg Config.spIndex v

/-! ### Memory (spec/20_memory.md R40-R43) -/

/-- The byte at an address; an unlisted address holds the zero of power-on (R34, R40). -/
def Memory.byteAt : Memory → Nat → Byte
  | [], _ => Config.unwrittenByte
  | (k, v) :: rest, a => if k = a then v else Memory.byteAt rest a

/-- Put a cell before the rest, unless its byte is what an unlisted address reads as. -/
def Memory.cons (a : Nat) (v : Byte) (rest : Memory) : Memory :=
  if v = Config.unwrittenByte then rest else (a, v) :: rest

/-- `MEM[a] <- v`, keeping the canonical form. -/
def Memory.update : Memory → Nat → Byte → Memory
  | [], a, v => Memory.cons a v []
  | (k, w) :: rest, a, v =>
    if a < k then Memory.cons a v ((k, w) :: rest)
    else if a = k then Memory.cons a v rest
    else (k, w) :: Memory.update rest a v

/-- The state with another memory. -/
def State.setMem (s : State) (m : Memory) : State := { s with mem := m }

/-- `MemRead(a, 1)` (R41). The address is neither clamped nor reduced. -/
def State.memRead (s : State) (a : Nat) : Except Trap Byte :=
  if a < Config.memSize then .ok (s.mem.byteAt a) else .error ⟨.outOfBounds, a⟩

/-- `MemWrite(a, 1, v)` (R42). -/
def State.memWrite (s : State) (a : Nat) (v : Byte) : Except Trap State :=
  if a < Config.memSize then .ok (s.setMem (s.mem.update a v)) else .error ⟨.outOfBounds, a⟩

/-- Store bytes at rising addresses, dropping those whose address does not exist: how `withFetchWord` places an
instruction (log 6). -/
def Memory.storeBytes (m : Memory) (a : Nat) : List Byte → Memory
  | [] => m
  | b :: bs => Memory.storeBytes (if a < Config.memSize then m.update a b else m) (a + 1) bs

/-! ### pc, OUT and RUN (R26, R27, R31, R32) -/

/-- `pc <- pc + 1 + n` after an instruction of `n` operand bytes (R27, R75 step 4): the 9-bit sum, not reduced modulo 256. -/
def State.advance (s : State) (n : Nat) : State := { s with pc := s.pc + BitVec.ofNat 9 (1 + n) }

/-- `pc <- target`: a control transfer to a byte (R27, R75). -/
def State.jump (s : State) (target : Byte) : State := { s with pc := target.setWidth 9 }

/-- `emit(v)`: OUT <- OUT ++ [v] (R32). -/
def State.emit (s : State) (v : Byte) : State := { s with out := s.out ++ [v] }

/-- `halt()`: RUN <- Halted (R31). -/
def State.halt (s : State) : State := { s with run := .halted }

/-! ### The stack (spec/42_stack.md R100, R101) -/

/-- The address Push stores to: SP - 1 (R100, spec/20_memory.md R48). -/
def pushAddress (s : State) : Nat := s.sp.toNat - 1

/-- `Push(v)` (R100): the overflow check precedes every write. -/
def State.push (s : State) (v : Byte) : Except Trap State :=
  if s.sp = 0 then .error ⟨.stackOverflow, s.sp.toNat⟩
  else (s.setSp (s.sp - 1)).memWrite (pushAddress s) v

/-- `Pop()` (R101): the byte at SP, then SP + 1. The limit is the constant 0xF4. -/
def State.pop (s : State) : Except Trap (Byte × State) :=
  if Config.spInit ≤ s.sp then .error ⟨.stackUnderflow, s.sp.toNat⟩
  else do
    let v ← s.memRead s.sp.toNat
    .ok (v, s.setSp (s.sp + 1))

/-! ### Taking a fault (spec/60_exceptions.md R138-R140) -/

/-- Fault entry: RUN <- Faulted(E, pc, info), and nothing else changes (R139, R140). -/
def State.raise (s : State) (t : Trap) : State := { s with run := .faulted t.cause s.pc t.info }

/-- The end of an instruction begun in `s`: its handler's state, or, if it raised, the fault taken in `s` itself, so that
no write of the instruction takes effect (R139). -/
def commit (s : State) (handler : Except Trap State) : Host.Outcome State Fault Refusal :=
  match handler with
  | .ok t => .next t
  | .error t => .next (s.raise t)

/-- The numeric cause codes of R130. -/
def Cause.code : Cause → Nat
  | .outOfBounds => 1
  | .invalidRegister => 2
  | .unsupportedOperation => 3
  | .illegalInstruction => 4
  | .stackOverflow => 5
  | .stackUnderflow => 6

end Sys2Proof.Machine
end

