-- ==== Sys2Proof/Machine/Flags.lean ====
section
/-! DEFINITION. The flags register FL = 00000LGE (spec/10_state.md R28) and the comparison that writes it
(spec/41_alu.md R93). -/

namespace Sys2Proof.Machine

/-- FL with E alone set, bit 0: x[a] = x[b] (R28). -/
def flagsEqual : Byte := 0b00000001#8

/-- FL with G alone set, bit 1: x[a] > x[b] (R28; the position is decision D2, log 10). -/
def flagsGreater : Byte := 0b00000010#8

/-- FL with L alone set, bit 2: x[a] < x[b] (R28; the position is decision D2, log 10). -/
def flagsLess : Byte := 0b00000100#8

/-- All 8 bits of FL after `CMP`, `d` from dest and `src` from src (R93): the difference `src - d` decides E, and the
order is of unsigned values (decision D5, log 10). -/
def compareFlags (d src : Byte) : Byte :=
  if (src.toNat : Int) - (d.toNat : Int) = 0 then flagsEqual
  else if d.toNat < src.toNat then flagsLess
  else flagsGreater

/-- FL is fully overwritten, not merged (R29). -/
def State.setFl (s : State) (v : Byte) : State := { s with fl := v }

/-- `FL[0] = 1`: all that JEQ and JNE read of FL (R29). -/
def State.equalSet (s : State) : Bool := s.fl.getLsbD 0

end Sys2Proof.Machine
end

