-- ==== Sys2Proof/Machine/Operands.lean ====
section
/-! DEFINITION. The two operand forms of spec/30_encoding.md R66, R67. -/

namespace Sys2Proof.Machine

/-- `CheckReg(i)` (spec/10_state.md R24): the whole byte is the index, unmasked; 8..255 raises InvalidRegister(i). -/
def checkReg (i : Byte) : Except Trap Reg :=
  if h : i.toNat < 8 then .ok ⟨i.toNat, h⟩ else .error ⟨.invalidRegister, i.toNat⟩

/-- An immediate operand (R67): the byte itself, not extended, scaled or shifted; every value is legal. -/
def immediate (operand : Byte) : Byte := operand

end Sys2Proof.Machine
end

