-- ==== Sys2Proof/Machine/Alu.lean ====
section
/-! DEFINITION. The ALU (spec/41_alu.md R90, R94) and ADD, MUL and CMP (R91-R93). -/

namespace Sys2Proof.Machine

/-- The `op` of the ALU's contract (R90). -/
inductive AluOp where
  | add | mul | cmp
  /-- Any other op value; no instruction presents one (R90, log 5). -/
  | other (op : Nat)
  deriving DecidableEq, Repr

/-- Keep an exact integer result modulo 256 (R7, R94). -/
def keepByte (n : Nat) : Byte := BitVec.ofNat 8 n

/-- `apply(op, dest_register, src_register)` (R90): both operands are read before the write (R96); no carry, overflow or
high part is kept (R94); any other op raises UnsupportedOperation (R133). -/
def aluApply (op : AluOp) (dest src : Reg) (s : State) : Except Trap State :=
  match op with
  | .add => .ok (s.setReg dest (keepByte ((s.reg dest).toNat + (s.reg src).toNat)))
  | .mul => .ok (s.setReg dest (keepByte ((s.reg dest).toNat * (s.reg src).toNat)))
  | .cmp => .ok (s.setFl (compareFlags (s.reg dest) (s.reg src)))
  | .other n => .error ⟨.unsupportedOperation, n⟩

/-- The handler shape of R91-R93: CheckReg(op1), CheckReg(op2), the ALU, then the sequential advance. -/
def aluHandler (op : AluOp) (op1 op2 : Byte) (s : State) : Except Trap State := do
  let a ← checkReg op1
  let b ← checkReg op2
  let t ← aluApply op a b s
  .ok (t.advance 2)

/-- ADD a, b (R91). -/
def execAdd (a b : Byte) (s : State) : Host.Outcome State Fault Refusal :=
  commit s (aluHandler .add a b s)

/-- MUL a, b (R92). -/
def execMul (a b : Byte) (s : State) : Host.Outcome State Fault Refusal :=
  commit s (aluHandler .mul a b s)

/-- CMP a, b (R93). -/
def execCmp (a b : Byte) (s : State) : Host.Outcome State Fault Refusal :=
  commit s (aluHandler .cmp a b s)

end Sys2Proof.Machine
end

