-- ==== Sys2Proof/Machine/Branch.lean ====
section
/-! DEFINITION. JMP, JEQ and JNE (spec/43_branch.md R120-R122). The register index is checked whether or not the branch is
taken (decision D11). -/

namespace Sys2Proof.Machine

/-- A jump to the address held in a register if `taken`, else the fall through (R120-R122). -/
def branchHandler (taken : Bool) (op1 : Byte) (s : State) : Except Trap State := do
  let r ← checkReg op1
  .ok (if taken then s.jump (s.reg r) else s.advance 1)

/-- JMP r (R120). -/
def execJmp (r : Byte) (s : State) : Host.Outcome State Fault Refusal :=
  commit s (branchHandler true r s)

/-- JEQ r (R121): taken iff FL bit 0 is set. -/
def execJeq (r : Byte) (s : State) : Host.Outcome State Fault Refusal :=
  commit s (branchHandler s.equalSet r s)

/-- JNE r (R122): taken iff FL bit 0 is clear. -/
def execJne (r : Byte) (s : State) : Host.Outcome State Fault Refusal :=
  commit s (branchHandler (!s.equalSet) r s)

end Sys2Proof.Machine
end

