-- ==== Sys2Proof/Machine/Stack.lean ====
section
/-! DEFINITION. PUSH, POP, CALL and RET (spec/42_stack.md R103-R106). -/

namespace Sys2Proof.Machine

/-- PUSH r (R103): the register is read before SP changes (decision D21). -/
def execPush (r : Byte) (s : State) : Host.Outcome State Fault Refusal :=
  commit s do
    let r ← checkReg r
    let t ← s.push (s.reg r)
    .ok (t.advance 1)

/-- POP r (R104): the register is written after SP is incremented, so with r = 7 SP ends as the popped value. -/
def execPop (r : Byte) (s : State) : Host.Outcome State Fault Refusal :=
  commit s do
    let r ← checkReg r
    let (v, t) ← s.pop
    .ok ((t.setReg r v).advance 1)

/-- CALL's return address `pc + 2` as the byte it is pushed as (R105): from 254 it is 256, which is no byte address and
raises OutOfBounds (decision D7). -/
def returnAddress (s : State) : Except Trap Byte :=
  let ret := s.pc.toNat + 2
  if ret < Config.memSize then .ok (BitVec.ofNat 8 ret) else .error ⟨.outOfBounds, ret⟩

/-- CALL r (R105): the target is read before the push (decision D21). -/
def execCall (r : Byte) (s : State) : Host.Outcome State Fault Refusal :=
  commit s do
    let r ← checkReg r
    let target := s.reg r
    let ret ← returnAddress s
    let t ← s.push ret
    .ok (t.jump target)

/-- RET (R106): whatever byte is on top of the stack becomes pc. -/
def execRet (s : State) : Host.Outcome State Fault Refusal :=
  commit s do
    let (v, t) ← s.pop
    .ok (t.jump v)

end Sys2Proof.Machine
end

