-- ==== Sys2Proof/Machine/System.lean ====
section
/-! DEFINITION. HALT, LOAD_IMMEDIATE and PRINT (spec/40_system.md R80-R82). -/

namespace Sys2Proof.Machine

/-- HALT (R80): RUN <- Halted, and step 4 still advances pc (decision D8). -/
def execHalt (s : State) : Host.Outcome State Fault Refusal :=
  commit s (.ok (s.halt.advance 0))

/-- LOAD_IMMEDIATE r, imm (R81): a register is written, never memory (conflict C1). -/
def execLoadImmediate (r imm : Byte) (s : State) : Host.Outcome State Fault Refusal :=
  commit s do
    let r ← checkReg r
    .ok ((s.setReg r (immediate imm)).advance 2)

/-- PRINT r (R82): the datum is the register's value, never the operand byte. -/
def execPrint (r : Byte) (s : State) : Host.Outcome State Fault Refusal :=
  commit s do
    let r ← checkReg r
    .ok ((s.emit (s.reg r)).advance 1)

end Sys2Proof.Machine
end

