-- ==== Sys2Proof/Syntax.lean ====
section
/-! DEFINITION. The 13 instructions of CORE (spec/00_scope.md R2, spec/30_encoding.md R61). An operand is the raw byte of
the instruction: every operand byte decodes (R69), and a register index is checked by the meaning (R24, R66). -/

namespace Sys2Proof

/-- One constructor per row of spec/opcode_table.json. -/
inductive Instr where
  /-- HALT (R80). -/
  | halt
  /-- LOAD_IMMEDIATE r, imm (R81). -/
  | loadImmediate (r imm : Byte)
  /-- PRINT r (R82). -/
  | print (r : Byte)
  /-- ADD a, b (R91): a is the destination. -/
  | add (a b : Byte)
  /-- MUL a, b (R92): a is the destination. -/
  | mul (a b : Byte)
  /-- CMP a, b (R93): a is "dest", b is "src". -/
  | cmp (a b : Byte)
  /-- PUSH r (R103). -/
  | push (r : Byte)
  /-- POP r (R104). -/
  | pop (r : Byte)
  /-- CALL r (R105). -/
  | call (r : Byte)
  /-- RET (R106). -/
  | ret
  /-- JMP r (R120). -/
  | jmp (r : Byte)
  /-- JEQ r (R121). -/
  | jeq (r : Byte)
  /-- JNE r (R122). -/
  | jne (r : Byte)
  deriving DecidableEq, Repr

end Sys2Proof
end

