-- ==== Sys2Proof/Decode.lean ====
section
/-! DEFINITION. The decoder (spec/30_encoding.md R60-R72, R75) and, after it, the encoder. A decoder matches the whole
opcode byte (R64) and takes the operand count from the fixed table of R62. -/

namespace Sys2Proof

/-- The enumerated opcode type the dispatch goes by (R72). -/
inductive Opcode where
  | halt | loadImmediate | print | add | mul | cmp | push | pop | call | ret | jmp | jeq | jne
  deriving DecidableEq, Repr

/-- `Decode(op)` of R72: one of the 13 instructions, or `none` for an illegal byte (R68). The bytes are R64's (log 9). -/
def decodeOpcode (op : Byte) : Option Opcode :=
  match op.toNat with
  | 0x01 => some .halt
  | 0x11 => some .ret
  | 0x45 => some .push
  | 0x46 => some .pop
  | 0x47 => some .print
  | 0x50 => some .call
  | 0x54 => some .jmp
  | 0x55 => some .jeq
  | 0x56 => some .jne
  | 0x82 => some .loadImmediate
  | 0xA0 => some .add
  | 0xA2 => some .mul
  | 0xA7 => some .cmp
  | _ => none

/-- `ARITY` of R62: how many operand bytes follow the opcode. -/
def Opcode.arity : Opcode → Nat
  | .halt | .ret => 0
  | .print | .push | .pop | .call | .jmp | .jeq | .jne => 1
  | .loadImmediate | .add | .mul | .cmp => 2

/-- The instruction an opcode makes of its operand bytes; an operand it does not have is not looked at (R61). -/
def Opcode.instr (o : Opcode) (op1 op2 : Byte) : Instr :=
  match o with
  | .halt => .halt
  | .loadImmediate => .loadImmediate op1 op2
  | .print => .print op1
  | .add => .add op1 op2
  | .mul => .mul op1 op2
  | .cmp => .cmp op1 op2
  | .push => .push op1
  | .pop => .pop op1
  | .call => .call op1
  | .ret => .ret
  | .jmp => .jmp op1
  | .jeq => .jeq op1
  | .jne => .jne op1

/-- Why a byte sequence is no instruction. -/
inductive DecodeError where
  /-- There is no opcode byte. -/
  | noOpcode
  /-- The opcode byte is none of R64's (R68). -/
  | illegalOpcode (op : Byte)
  /-- The bytes end before the opcode's operands do (R62). -/
  | missingOperand (o : Opcode)
  deriving DecidableEq, Repr

/-- The instruction at the head of a byte sequence and the bytes after it. The opcode is judged before any operand is
looked at (R75, decision D13). -/
def decode : List Byte → Except DecodeError (Instr × List Byte)
  | [] => .error .noOpcode
  | op :: rest =>
    match decodeOpcode op with
    | none => .error (.illegalOpcode op)
    | some o =>
      match o.arity, rest with
      | 0, rest => .ok (o.instr 0 0, rest)
      | 1, op1 :: rest => .ok (o.instr op1 0, rest)
      | 2, op1 :: op2 :: rest => .ok (o.instr op1 op2, rest)
      | _, _ => .error (.missingOperand o)

/-- The first three bytes (the longest instruction) of a table word of `nbits` bits, lowest byte first; the bits above
`nbits` are 0. -/
def tableBytes (nbits w : Nat) : List Byte :=
  let v := w % 2 ^ nbits
  [BitVec.ofNat 8 v, BitVec.ofNat 8 (v / 2 ^ 8), BitVec.ofNat 8 (v / 2 ^ 16)]

/-- What the decoder reads from a word numbered as spec/opcode_table.json numbers it. -/
def decodeTableWord (nbits w : Nat) : Option Instr :=
  match decode (tableBytes nbits w) with
  | .ok (i, _) => some i
  | .error _ => none

/-- The opcode byte of R64's table, column "opcode (binary)" (log 9). -/
def Opcode.byte : Opcode → Byte
  | .halt => 0b00000001#8
  | .loadImmediate => 0b10000010#8
  | .print => 0b01000111#8
  | .add => 0b10100000#8
  | .mul => 0b10100010#8
  | .cmp => 0b10100111#8
  | .push => 0b01000101#8
  | .pop => 0b01000110#8
  | .call => 0b01010000#8
  | .ret => 0b00010001#8
  | .jmp => 0b01010100#8
  | .jeq => 0b01010101#8
  | .jne => 0b01010110#8

/-- The opcode of an instruction. -/
def Instr.opcode : Instr → Opcode
  | .halt => .halt
  | .loadImmediate _ _ => .loadImmediate
  | .print _ => .print
  | .add _ _ => .add
  | .mul _ _ => .mul
  | .cmp _ _ => .cmp
  | .push _ => .push
  | .pop _ => .pop
  | .call _ => .call
  | .ret => .ret
  | .jmp _ => .jmp
  | .jeq _ => .jeq
  | .jne _ => .jne

/-- The operand bytes in byte order: op1, then op2 (R60, R61). -/
def Instr.operands : Instr → List Byte
  | .halt => []
  | .loadImmediate r imm => [r, imm]
  | .print r => [r]
  | .add a b => [a, b]
  | .mul a b => [a, b]
  | .cmp a b => [a, b]
  | .push r => [r]
  | .pop r => [r]
  | .call r => [r]
  | .ret => []
  | .jmp r => [r]
  | .jeq r => [r]
  | .jne r => [r]

/-- The bytes of an instruction, the opcode at the lowest address (R46, R60). -/
def encode (i : Instr) : List Byte := i.opcode.byte :: i.operands

/-- The length of an instruction: 1 + n bytes (R60). -/
def Instr.length (i : Instr) : Nat := 1 + i.opcode.arity

end Sys2Proof
end

