-- ==== Sys2Proof/Machine/Fetch.lean ====
section
/-! DEFINITION. Fetching an instruction (spec/30_encoding.md R75, steps 1 to 3). -/

namespace Sys2Proof.Machine

/-- The fetch of R75: the opcode at pc, judged before any operand is read (decision D13), then op1 at pc + 1 and op2 at
pc + 2 as the operand count requires. It raises OutOfBounds or IllegalInstruction in the order of R142. -/
def fetch (s : State) : Except Trap Instr := do
  let op ← s.memRead s.pc.toNat
  match decodeOpcode op with
  | none => .error ⟨.illegalInstruction, op.toNat⟩
  | some o =>
    let op1 ← if 1 ≤ o.arity then s.memRead (s.pc.toNat + 1) else .ok 0
    let op2 ← if 2 ≤ o.arity then s.memRead (s.pc.toNat + 2) else .ok 0
    .ok (o.instr op1 op2)

end Sys2Proof.Machine
end

