-- ==== Sys2Proof/Machine/Step.lean ====
section
/-! DEFINITION. One step of the dispatcher (spec/30_encoding.md R75). -/

namespace Sys2Proof.Machine

/-- `Step()` of R75, "taken only while RUN = Running"; a halted or faulted core has no step (spec/60_exceptions.md R147;
log 1). A fetch that raises takes the fault (R140). -/
def step (s : State) : Host.Outcome State Fault Refusal :=
  match s.run with
  | .running =>
    match fetch s with
    | .ok i => exec i s
    | .error t => .next (s.raise t)
  | .halted => .fault .coreHalted
  | .faulted _ _ _ => .fault .coreFaulted

/-- The state with an instruction's bytes placed at pc and the core started, so that the next step fetches and runs it:
what the Loader and the start do for a program (R160, R161; log 6). Bytes whose address would lie above 255 have no place
and are dropped, so an instruction placed too high faults in its fetch (R131). -/
def State.withFetchWord (s : State) (nbits w : Nat) : State :=
  { s with mem := s.mem.storeBytes s.pc.toNat (tableBytes nbits w), run := .running }

end Sys2Proof.Machine
end

