-- ==== Sys2Proof/Machine/HostPort.lean ====
section
/-! DEFINITION. The core's interface to its host (spec/70_reset_and_hazards.md R160, R161, R168; spec/60_exceptions.md R148):
the load port, the start, the output and the terminal status. -/

namespace Sys2Proof.Machine

/-- The Loader's writes, one byte at a time through the bounds-checked controller (R42, R161). -/
def loadFrom (a : Nat) (image : List Byte) (s : State) : Except Trap State :=
  match image with
  | [] => .ok s
  | b :: rest => do
    let t ← s.memWrite a b
    loadFrom (a + 1) rest t

/-- The load port (R161): `none` is a load failure, after which the core never starts (decision D19; log 8). -/
def State.load (s : State) (image : List Byte) : Option State :=
  match loadFrom Config.loadAddress image s with
  | .ok t => some t
  | .error _ => none

/-- The start (R160 step 3): RUN <- Running. -/
def State.start (s : State) : State := { s with run := .running }

/-- The state at the first fetch of a run of `image` (R34, R160): reset, load, start. -/
def boot (image : List Byte) : Option State := (State.reset.load image).map State.start

/-- The two exit classes the core's terminal status maps to (R148). -/
inductive ExitClass where
  | success | runtimeFault
  deriving DecidableEq, Repr

/-- The terminal status as the host sees it (R148, R168): `none` while Running. -/
def RunState.exitClass : RunState → Option ExitClass
  | .running => none
  | .halted => some .success
  | .faulted _ _ _ => some .runtimeFault

/-- Every integer but 0, each once: a runtime fault's exit code is "non-zero" (R148). -/
def nonzeroCode (choice : Int) : Int := if 0 ≤ choice then choice + 1 else choice

/-- `EXIT_CODE`, the host's open parameter (R148, D23; log 7). -/
def ExitClass.exitCode : ExitClass → Int
  | .success => Config.successExitCode
  | .runtimeFault => nonzeroCode Config.faultExitChoice

end Sys2Proof.Machine
end

