-- ==== Sys2Proof/WellFormed.lean ====
section
/-! DEFINITION. When an instruction is well formed: every operand that names a register holds a valid index
(spec/10_state.md R24, spec/30_encoding.md R66). An ill-formed instruction still encodes, decodes and executes: its
meaning raises InvalidRegister (R69). LOAD_IMMEDIATE's second operand is an immediate and is not checked (R67, R81). -/

namespace Sys2Proof

/-- The operand byte names one of r0..r7 (R24); it is not masked. -/
def validIndex (operand : Byte) : Bool := decide (operand.toNat < Config.numRegs)

/-- Every register-index operand is valid (R66). -/
def Instr.wellFormed : Instr → Bool
  | .halt => true
  | .loadImmediate r _ => validIndex r
  | .print r => validIndex r
  | .add a b => validIndex a && validIndex b
  | .mul a b => validIndex a && validIndex b
  | .cmp a b => validIndex a && validIndex b
  | .push r => validIndex r
  | .pop r => validIndex r
  | .call r => validIndex r
  | .ret => true
  | .jmp r => validIndex r
  | .jeq r => validIndex r
  | .jne r => validIndex r

end Sys2Proof
end

