-- ==== Sys2Proof/Safety.lean ====
section
/-! DEFINITION. The terms in which claims about CORE are made: the invariant of a legal state, runs and their ends
(spec/70_reset_and_hazards.md R167), what a frame keeps, and sequences of stack operations (spec/42_stack.md R107). -/

namespace Sys2Proof.Machine

/-! ### The invariant -/

/-- FL is 0x00 before the first CMP and 0x01, 0x02 or 0x04 after any (spec/10_state.md R28). -/
def legalFlags (fl : Byte) : Prop := fl = 0x00#8 ∨ fl = 0x01#8 ∨ fl = 0x02#8 ∨ fl = 0x04#8

/-- What `info` may be for each cause, SP being the stack pointer at the fault (spec/60_exceptions.md R131-R136, R138). No
program raises UnsupportedOperation (R133). -/
def legalFaultInfo (sp : Byte) (info : Nat) : Cause → Prop
  | .outOfBounds => info = 256
  | .invalidRegister => 8 ≤ info ∧ info ≤ 255
  | .unsupportedOperation => False
  | .illegalInstruction => info ≤ 255 ∧ decodeOpcode (BitVec.ofNat 8 info) = none
  | .stackOverflow => sp = 0x00#8 ∧ info = 0
  | .stackUnderflow => 0xF4 ≤ sp.toNat ∧ info = sp.toNat

/-- A recorded fault is one the spec describes, and pc still points at the faulting instruction (R138, R139). -/
def legalRun (s : State) : Prop :=
  match s.run with
  | .running => True
  | .halted => True
  | .faulted cause fpc info => fpc = s.pc ∧ legalFaultInfo s.sp info cause

/-- A legal state: memory in canonical form (R40), pc in 0..256 (R26), FL as CMP leaves it (R28), a legal fault record. -/
structure State.Inv (s : State) : Prop where
  mem : s.mem.wf = true
  pc : s.pc.toNat ≤ 256
  fl : legalFlags s.fl
  run : legalRun s

/-! ### Runs and how they end (R75, R167) -/

/-- The next state of an outcome, if it is one. -/
def nextState : Host.Outcome State Fault Refusal → Option State
  | .next t => some t
  | .fault _ => none
  | .refused _ => none

/-- The state after at most `k` steps: the run loop of R75, which stays where there is no step (R147). -/
def runSteps : Nat → State → State
  | 0, s => s
  | k + 1, s =>
    match step s with
    | .next t => runSteps k t
    | .fault _ => s
    | .refused _ => s

/-- RUN is Faulted. -/
def RunState.isFaulted : RunState → Bool
  | .faulted _ _ _ => true
  | .running => false
  | .halted => false

/-- The run from `s` ends Halted: the success outcome (R167). -/
def Halts (s : State) : Prop := ∃ k, (runSteps k s).run = .halted

/-- The run from `s` ends Faulted (R167). -/
def Faults (s : State) : Prop := ∃ k, (runSteps k s).run.isFaulted = true

/-- The run from `s` is a hang: it never leaves Running (R167). -/
def Hangs (s : State) : Prop := ∀ k, (runSteps k s).run = .running

/-! ### Frames -/

/-- Every register outside `changed` reads as before. -/
def RegsKept (changed : List Reg) (s t : State) : Prop := ∀ r : Reg, r ∉ changed → t.reg r = s.reg r

/-- Every address outside `stored` reads as before, in range or not. -/
def MemKept (stored : List Nat) (s t : State) : Prop := ∀ a : Nat, a ∉ stored → t.memRead a = s.memRead a

/-- The fault `cause`, `info` taken in `s`, as an outcome: the next state is `s` with RUN <- Faulted(cause, pc, info) and
nothing else changed (R139, R140). -/
def TakesFault (o : Host.Outcome State Fault Refusal) (s : State) (cause : Cause) (info : Nat) : Prop :=
  o = .next { s with run := .faulted cause s.pc info }

/-- An instruction of `length` bytes whose opcode is `op` faults in its fetch when its last byte would lie at 256 or above:
OutOfBounds(256) at its own pc (R75, R131). -/
def FetchFaults (op : Byte) (length : Nat) : Prop :=
  ∀ s : State, s.run = .running → s.pc.toNat ≤ 255 → s.mem.byteAt s.pc.toNat = op →
    256 < s.pc.toNat + length → TakesFault (step s) s .outOfBounds 256

/-- The bytes from pc to the end of memory, which hold the next instruction (spec/30_encoding.md R60). -/
def codeAt (s : State) : List Byte :=
  (List.range' s.pc.toNat (Config.memSize - s.pc.toNat)).map s.mem.byteAt

/-- The operand bytes that are register indices, in the order they are checked (R66, R142). -/
def registerOperands : Instr → List Byte
  | .halt => []
  | .loadImmediate r _ => [r]
  | .print r => [r]
  | .add a b => [a, b]
  | .mul a b => [a, b]
  | .cmp a b => [a, b]
  | .push r => [r]
  | .pop r => [r]
  | .call r => [r]
  | .ret => []
  | .jmp r => [r]
  | .jeq r => [r]
  | .jne r => [r]

/-- The instructions that may assign pc themselves (spec/43_branch.md R123). -/
def isTransfer : Instr → Bool
  | .call _ => true
  | .ret => true
  | .jmp _ => true
  | .jeq _ => true
  | .jne _ => true
  | .halt => false
  | .loadImmediate _ _ => false
  | .print _ => false
  | .add _ _ => false
  | .mul _ _ => false
  | .cmp _ _ => false
  | .push _ => false
  | .pop _ => false

/-! ### Sequences of stack operations (R107) -/

/-- Push the bytes of a list in order. -/
def pushAll : List Byte → State → Except Trap State
  | [], s => .ok s
  | v :: vs, s => do
    let t ← s.push v
    pushAll vs t

/-- Pop `n` times; the values in the order they were popped. -/
def popAll : Nat → State → Except Trap (List Byte × State)
  | 0, s => .ok ([], s)
  | n + 1, s => do
    let (v, t) ← s.pop
    let (vs, u) ← popAll n t
    .ok (v :: vs, u)

/-! ### What a program cannot see -/

/-- Two states that agree on everything but FL bits 7:1, which no instruction reads (R28, R29, R33). -/
structure SameButHiddenFlags (s t : State) : Prop where
  mem : t.mem = s.mem
  x : t.x = s.x
  pc : t.pc = s.pc
  run : t.run = s.run
  out : t.out = s.out
  equal : t.fl.getLsbD 0 = s.fl.getLsbD 0

end Sys2Proof.Machine
end

