-- ==== Sys2Proof/Certificates/Slice0/Obligations.lean ====
section
/-! DEFINITION. The statements for the provers. Each names the rule of spec/ it formalises; one that rests on a decision of
spec/92_eei_decisions.md, or on an inference the spec marks as its own, says so. The frames are said through the model's
reads: `RegsKept` (every register but the named ones), `MemKept` (every byte but the named addresses), and FL, RUN, OUT and
pc one by one. `TakesFault o s cause info` says that the outcome `o` is the NEXT state `s` with RUN alone changed. -/

open Sys2Proof Sys2Proof.Machine

/-! ## Registers and memory -/

/-- spec/10_state.md R25: `set(r, v); get(r) == v` for every register, r7 among them, and a write to r changes no other
register. -/
def Obligations.RegisterWriteThenReadLaw : Prop :=
  ∀ (s : State) (r : Reg) (v : Byte),
    (s.setReg r v).reg r = v ∧ RegsKept [r] s (s.setReg r v)

/-- spec/10_state.md R24: an index outside 0..7 raises InvalidRegister(i), and a byte is not masked to its low 3 bits: each of
0..7 names its own register, each of 8..255 raises. -/
def Obligations.RegisterIndexIsCheckedUnmasked : Prop :=
  ∀ i : Byte,
    (i.toNat ≤ 7 → ∃ r : Reg, r.val = i.toNat ∧ checkReg i = .ok r) ∧
    (8 ≤ i.toNat → checkReg i = .error ⟨.invalidRegister, i.toNat⟩)

/-- The memory law of spec/20_memory.md section 2 (R43): in range a write then a read gives the value written, and a write to a
changes no other address; out of range both operations fail with OutOfBounds. The canonical form of memory, a premise and in
range also a conclusion, is no rule of the spec: it is the model's choice (log 18), kept by every step
(`LegalStateIsKeptByEveryStep`). -/
def Obligations.MemoryWriteThenReadLaw : Prop :=
  ∀ (s : State) (a : Nat) (v : Byte), s.mem.wf = true →
    (a ≤ 255 → ∃ t, s.memWrite a v = .ok t ∧ t.memRead a = .ok v ∧ MemKept [a] s t ∧ t.mem.wf = true) ∧
    (256 ≤ a → s.memWrite a v = .error ⟨.outOfBounds, a⟩ ∧ s.memRead a = .error ⟨.outOfBounds, a⟩)

/-- The model's own representation (log 18) of the 256-byte memory of spec/20_memory.md R40: two memories in canonical form that
read the same at every address of the space are the same data. -/
def Obligations.CanonicalMemoriesReadingEqualAreEqual : Prop :=
  ∀ m n : Memory, m.wf = true → n.wf = true → (∀ a, a ≤ 255 → m.byteAt a = n.byteAt a) → m = n

/-! ## Encoding, decoding and the execute cycle -/

/-- Words written out from the encodings of spec/30_encoding.md R64 (decision D1), one or more of each format of R61: a sanity
statement. -/
def Obligations.OpcodeWordsDecodeAsSpecified : Prop :=
  decode [0b00000001#8] = .ok (.halt, []) ∧
  decode [0b10000010#8, 0b00000000#8, 0b00001000#8] = .ok (.loadImmediate 0#8 8#8, []) ∧
  decode [0b01000111#8, 0b00000111#8] = .ok (.print 7#8, []) ∧
  decode [0b10100111#8, 0b00000010#8, 0b00000101#8, 0b11111111#8] = .ok (.cmp 2#8 5#8, [0b11111111#8]) ∧
  decode [0b01010000#8, 0b00000001#8] = .ok (.call 1#8, []) ∧
  decode [0b00010001#8] = .ok (.ret, []) ∧
  decode [0b01010110#8, 0b11111111#8] = .ok (.jne 255#8, []) ∧
  decode [0b00000000#8] = .error (.illegalOpcode 0#8)

/-- spec/30_encoding.md R60-R62, R69 with the bytes of R64 (decision D1): the decoder reads instruction i and leaves the bytes
`rest` exactly when the bytes are the encoding of i followed by `rest`. So decoding an encoding gives the instruction back with
every operand byte, and every instruction has one encoding. -/
def Obligations.DecodeAndEncodeAgree : Prop :=
  ∀ (i : Instr) (bytes rest : List Byte), decode bytes = .ok (i, rest) ↔ bytes = encode i ++ rest

/-- spec/30_encoding.md R68, R72 with the bytes of R64 (decision D1): a byte decodes exactly when it is one of the 13 values, and
256 - 13 = 243 values are illegal. -/
def Obligations.ExactlyThirteenOpcodesAreLegal : Prop :=
  (∀ b : Byte, (∃ o, decodeOpcode b = some o) ↔
    b ∈ [0x01#8, 0x82#8, 0x47#8, 0xA0#8, 0xA2#8, 0xA7#8, 0x45#8, 0x46#8, 0x50#8, 0x11#8, 0x54#8, 0x55#8, 0x56#8]) ∧
  ((List.range 256).filter fun n => (decodeOpcode (BitVec.ofNat 8 n)).isNone).length = 243

/-- spec/30_encoding.md R63 (an inference of the spec's own, with decision D1): `op[7:6]` equals the operand count of every
defined opcode. -/
def Obligations.HighBitsGiveOperandCount : Prop :=
  ∀ (b : Byte) (o : Opcode), decodeOpcode b = some o → b.toNat / 64 = o.arity

/-- spec/30_encoding.md R75 and the fetch part of spec/60_exceptions.md R142 (decisions D11, D13): while Running, a step is what
the bytes from pc to the end of memory decode to: the instruction, or IllegalInstruction(op) before any operand is looked at,
or OutOfBounds at pc when there is no opcode byte, or OutOfBounds(256) when an operand byte would lie at 256. -/
def Obligations.StepRunsTheDecodedInstruction : Prop :=
  ∀ s : State, s.run = .running →
    (∀ i rest, decode (codeAt s) = .ok (i, rest) → step s = exec i s) ∧
    (∀ op, decode (codeAt s) = .error (.illegalOpcode op) → TakesFault (step s) s .illegalInstruction op.toNat) ∧
    (decode (codeAt s) = .error .noOpcode → TakesFault (step s) s .outOfBounds s.pc.toNat) ∧
    (∀ o, decode (codeAt s) = .error (.missingOperand o) → TakesFault (step s) s .outOfBounds 256)

/-- spec/60_exceptions.md R134: an opcode byte outside the 13 values raises IllegalInstruction with the opcode byte, wherever it
is fetched and whatever follows it; it is no silent no-op; and nothing else raises it. -/
def Obligations.UnknownOpcodeFaults : Prop :=
  ∀ s : State, s.run = .running →
    (∀ op, s.memRead s.pc.toNat = .ok op →
      op ∉ [0x01#8, 0x82#8, 0x47#8, 0xA0#8, 0xA2#8, 0xA7#8, 0x45#8, 0x46#8, 0x50#8, 0x11#8, 0x54#8, 0x55#8, 0x56#8] →
      TakesFault (step s) s .illegalInstruction op.toNat) ∧
    (∀ t fpc info, step s = .next t → t.run = .faulted .illegalInstruction fpc info →
      ∃ op, s.memRead s.pc.toNat = .ok op ∧ decodeOpcode op = none ∧ info = op.toNat)

/-! ## HALT, LOAD_IMMEDIATE and PRINT -/

/-- HALT, spec/40_system.md R80; that pc ends one past HALT is decision D8, that the opcode is 0x01 is D1. HALT raises nothing of
its own, from any state. -/
def Obligations.HaltEntersHaltedAndAdvances : Prop :=
  encode .halt = [0x01#8] ∧
  ∀ s : State, ∃ t, exec .halt s = .next t ∧ t.run = .halted ∧ t.pc = s.pc + 1#9 ∧
    RegsKept [] s t ∧ MemKept [] s t ∧ t.fl = s.fl ∧ t.out = s.out

/-- LOAD_IMMEDIATE, spec/40_system.md R81: the register, r7 included, takes the immediate, whatever byte that is; memory is
never written; only op1 is checked. Its bytes are those of R64, to which R81 refers. -/
def Obligations.LoadImmediateWritesItsRegister : Prop :=
  ∀ r imm : Byte,
    encode (.loadImmediate r imm) = [0x82#8, r, imm] ∧ FetchFaults 0x82#8 3 ∧
    ∀ s : State,
      (8 ≤ r.toNat → TakesFault (exec (.loadImmediate r imm) s) s .invalidRegister r.toNat) ∧
      (∀ a : Reg, r.toNat = a.val → ∃ t, exec (.loadImmediate r imm) s = .next t ∧ t.reg a = imm ∧
        t.pc = s.pc + 3#9 ∧ RegsKept [a] s t ∧ MemKept [] s t ∧ t.fl = s.fl ∧ t.run = s.run ∧ t.out = s.out)

/-- PRINT, spec/40_system.md R82 (the opcode is D1's; the host's decimal text is outside the core, D18): the value held in
the register is appended to OUT, never the operand byte. -/
def Obligations.PrintAppendsTheRegisterValue : Prop :=
  ∀ r : Byte,
    encode (.print r) = [0x47#8, r] ∧ FetchFaults 0x47#8 2 ∧
    ∀ s : State,
      (8 ≤ r.toNat → TakesFault (exec (.print r) s) s .invalidRegister r.toNat) ∧
      (∀ a : Reg, r.toNat = a.val → ∃ t, exec (.print r) s = .next t ∧ t.out = s.out ++ [s.reg a] ∧
        t.pc = s.pc + 2#9 ∧ RegsKept [] s t ∧ MemKept [] s t ∧ t.fl = s.fl ∧ t.run = s.run)

/-! ## ADD, MUL and CMP -/

/-- ADD, spec/41_alu.md R91: the sum modulo 256 of the two registers as they were, into the first, also when both operands name
one register or name SP; FL unchanged; op1 is reported before op2. Its bytes are those of R64, to which R91 refers. -/
def Obligations.AddWrapsModulo256 : Prop :=
  ∀ a b : Byte,
    encode (.add a b) = [0xA0#8, a, b] ∧ FetchFaults 0xA0#8 3 ∧
    ∀ s : State,
      (8 ≤ a.toNat → TakesFault (exec (.add a b) s) s .invalidRegister a.toNat) ∧
      (a.toNat ≤ 7 → 8 ≤ b.toNat → TakesFault (exec (.add a b) s) s .invalidRegister b.toNat) ∧
      (∀ ra rb : Reg, a.toNat = ra.val → b.toNat = rb.val → ∃ t, exec (.add a b) s = .next t ∧
        (t.reg ra).toNat = ((s.reg ra).toNat + (s.reg rb).toNat) % 256 ∧
        t.pc = s.pc + 3#9 ∧ RegsKept [ra] s t ∧ MemKept [] s t ∧ t.fl = s.fl ∧ t.run = s.run ∧ t.out = s.out)

/-- MUL, spec/41_alu.md R92: the low byte of the unsigned product, into the first register; FL unchanged. Its bytes are those of
R64, to which R92 refers. -/
def Obligations.MulKeepsTheLowByte : Prop :=
  ∀ a b : Byte,
    encode (.mul a b) = [0xA2#8, a, b] ∧ FetchFaults 0xA2#8 3 ∧
    ∀ s : State,
      (8 ≤ a.toNat → TakesFault (exec (.mul a b) s) s .invalidRegister a.toNat) ∧
      (a.toNat ≤ 7 → 8 ≤ b.toNat → TakesFault (exec (.mul a b) s) s .invalidRegister b.toNat) ∧
      (∀ ra rb : Reg, a.toNat = ra.val → b.toNat = rb.val → ∃ t, exec (.mul a b) s = .next t ∧
        (t.reg ra).toNat = ((s.reg ra).toNat * (s.reg rb).toNat) % 256 ∧
        t.pc = s.pc + 3#9 ∧ RegsKept [ra] s t ∧ MemKept [] s t ∧ t.fl = s.fl ∧ t.run = s.run ∧ t.out = s.out)

/-- CMP, spec/41_alu.md R93; the places of G and L are decision D2, the unsigned order D5, the opcode D1: exactly one of the
three bits is set, all of FL is written, and no register is. -/
def Obligations.CompareSetsExactlyOneFlag : Prop :=
  ∀ a b : Byte,
    encode (.cmp a b) = [0xA7#8, a, b] ∧ FetchFaults 0xA7#8 3 ∧
    ∀ s : State,
      (8 ≤ a.toNat → TakesFault (exec (.cmp a b) s) s .invalidRegister a.toNat) ∧
      (a.toNat ≤ 7 → 8 ≤ b.toNat → TakesFault (exec (.cmp a b) s) s .invalidRegister b.toNat) ∧
      (∀ ra rb : Reg, a.toNat = ra.val → b.toNat = rb.val → ∃ t, exec (.cmp a b) s = .next t ∧
        ((s.reg ra).toNat = (s.reg rb).toNat → t.fl = 0b00000001#8) ∧
        ((s.reg ra).toNat > (s.reg rb).toNat → t.fl = 0b00000010#8) ∧
        ((s.reg ra).toNat < (s.reg rb).toNat → t.fl = 0b00000100#8) ∧
        t.pc = s.pc + 3#9 ∧ RegsKept [] s t ∧ MemKept [] s t ∧ t.run = s.run ∧ t.out = s.out)

/-! ## PUSH, POP, CALL and RET -/

/-- PUSH, spec/42_stack.md R100, R103; that the register is read before SP moves is decision D21 (PUSH r7 stores the old SP), the
opcode is D1's. It stores one byte, at SP - 1. -/
def Obligations.PushStoresBelowTheStackPointer : Prop :=
  ∀ r : Byte,
    encode (.push r) = [0x45#8, r] ∧ FetchFaults 0x45#8 2 ∧
    ∀ s : State,
      (8 ≤ r.toNat → TakesFault (exec (.push r) s) s .invalidRegister r.toNat) ∧
      (r.toNat ≤ 7 → s.sp.toNat = 0 → TakesFault (exec (.push r) s) s .stackOverflow 0) ∧
      (∀ a : Reg, r.toNat = a.val → s.sp.toNat ≠ 0 → ∃ t, exec (.push r) s = .next t ∧
        t.sp.toNat = s.sp.toNat - 1 ∧ (s.mem.wf = true → t.memRead (pushAddress s) = .ok (s.reg a)) ∧
        t.pc = s.pc + 2#9 ∧ RegsKept [7] s t ∧ MemKept [pushAddress s] s t ∧
        t.fl = s.fl ∧ t.run = s.run ∧ t.out = s.out)

/-- POP, spec/42_stack.md R101, R104; that POP r7 ends with the popped value in SP is an inference of the spec's own, the opcode
is D1's. It writes no memory: the popped byte stays. -/
def Obligations.PopLoadsTheTopOfTheStack : Prop :=
  ∀ r : Byte,
    encode (.pop r) = [0x46#8, r] ∧ FetchFaults 0x46#8 2 ∧
    ∀ s : State,
      (8 ≤ r.toNat → TakesFault (exec (.pop r) s) s .invalidRegister r.toNat) ∧
      (r.toNat ≤ 7 → 0xF4 ≤ s.sp.toNat → TakesFault (exec (.pop r) s) s .stackUnderflow s.sp.toNat) ∧
      (∀ a : Reg, r.toNat = a.val → s.sp.toNat < 0xF4 → ∃ t, exec (.pop r) s = .next t ∧
        s.memRead s.sp.toNat = .ok (t.reg a) ∧ (a ≠ 7 → t.sp.toNat = s.sp.toNat + 1) ∧
        t.pc = s.pc + 2#9 ∧ RegsKept [a, 7] s t ∧ MemKept [] s t ∧ t.fl = s.fl ∧ t.run = s.run ∧ t.out = s.out)

/-- CALL, spec/42_stack.md R105; the fault at 254 is decision D7, the target read before the push D21, the opcode D1. The return
address pc + 2 is stored at SP - 1, and pc takes the register's old value. -/
def Obligations.CallPushesTheReturnAddressAndJumps : Prop :=
  ∀ r : Byte,
    encode (.call r) = [0x50#8, r] ∧ FetchFaults 0x50#8 2 ∧
    ∀ s : State,
      (8 ≤ r.toNat → TakesFault (exec (.call r) s) s .invalidRegister r.toNat) ∧
      (r.toNat ≤ 7 → 255 < s.pc.toNat + 2 → TakesFault (exec (.call r) s) s .outOfBounds (s.pc.toNat + 2)) ∧
      (r.toNat ≤ 7 → s.pc.toNat + 2 ≤ 255 → s.sp.toNat = 0 → TakesFault (exec (.call r) s) s .stackOverflow 0) ∧
      (∀ a : Reg, r.toNat = a.val → s.pc.toNat + 2 ≤ 255 → s.sp.toNat ≠ 0 → ∃ t, exec (.call r) s = .next t ∧
        t.pc.toNat = (s.reg a).toNat ∧ t.sp.toNat = s.sp.toNat - 1 ∧
        (s.mem.wf = true → ∃ ret, t.memRead (pushAddress s) = .ok ret ∧ ret.toNat = s.pc.toNat + 2) ∧
        RegsKept [7] s t ∧ MemKept [pushAddress s] s t ∧ t.fl = s.fl ∧ t.run = s.run ∧ t.out = s.out)

/-- RET, spec/42_stack.md R106: the byte on top of the stack becomes pc, whoever pushed it, and SP goes up by one; at or above 0xF4
it raises StackUnderflow(SP). Its byte is that of R64, to which R106 refers; its only fetch fault is at pc = 256. -/
def Obligations.RetPopsTheProgramCounter : Prop :=
  encode .ret = [0x11#8] ∧
  (∀ s : State, s.run = .running → s.pc.toNat = 256 → TakesFault (step s) s .outOfBounds 256) ∧
  (∀ s : State, s.run = .running → s.memRead s.pc.toNat = .ok 0x11#8 → step s = exec .ret s) ∧
  ∀ s : State,
    (0xF4 ≤ s.sp.toNat → TakesFault (exec .ret s) s .stackUnderflow s.sp.toNat) ∧
    (s.sp.toNat < 0xF4 → ∃ t v, exec .ret s = .next t ∧
      s.memRead s.sp.toNat = .ok v ∧ t.pc.toNat = v.toNat ∧ t.sp.toNat = s.sp.toNat + 1 ∧
      RegsKept [7] s t ∧ MemKept [] s t ∧ t.fl = s.fl ∧ t.run = s.run ∧ t.out = s.out)

/-! ## JMP, JEQ and JNE -/

/-- JMP, spec/43_branch.md R120: pc takes the value held in the register, never the operand byte; nothing else changes; a JMP to
its own address is a hang, not a fault. Its bytes are those of R64, to which R120 refers. -/
def Obligations.JumpGoesToTheRegisterValue : Prop :=
  ∀ r : Byte,
    encode (.jmp r) = [0x54#8, r] ∧ FetchFaults 0x54#8 2 ∧
    (∀ (s : State) (a : Reg), s.run = .running → r.toNat = a.val → fetch s = .ok (.jmp r) →
      s.pc.toNat = (s.reg a).toNat → Hangs s) ∧
    ∀ s : State,
      (8 ≤ r.toNat → TakesFault (exec (.jmp r) s) s .invalidRegister r.toNat) ∧
      (∀ a : Reg, r.toNat = a.val → ∃ t, exec (.jmp r) s = .next t ∧ t.pc.toNat = (s.reg a).toNat ∧
        RegsKept [] s t ∧ MemKept [] s t ∧ t.fl = s.fl ∧ t.run = s.run ∧ t.out = s.out)

/-- JEQ, spec/43_branch.md R121; that the index is checked even when the branch is not taken is decision D11, the opcode D1: taken
iff FL bit 0 is set, else the fall through. -/
def Obligations.JumpEqualIsTakenOnBitZeroSet : Prop :=
  ∀ r : Byte,
    encode (.jeq r) = [0x55#8, r] ∧ FetchFaults 0x55#8 2 ∧
    ∀ s : State,
      (8 ≤ r.toNat → TakesFault (exec (.jeq r) s) s .invalidRegister r.toNat) ∧
      (∀ a : Reg, r.toNat = a.val → ∃ t, exec (.jeq r) s = .next t ∧
        (s.fl.getLsbD 0 = true → t.pc.toNat = (s.reg a).toNat) ∧ (s.fl.getLsbD 0 = false → t.pc = s.pc + 2#9) ∧
        RegsKept [] s t ∧ MemKept [] s t ∧ t.fl = s.fl ∧ t.run = s.run ∧ t.out = s.out)

/-- JNE, spec/43_branch.md R122; that the index is checked even when the branch is not taken is decision D11, the opcode D1: taken
iff FL bit 0 is clear, else the fall through. -/
def Obligations.JumpNotEqualIsTakenOnBitZeroClear : Prop :=
  ∀ r : Byte,
    encode (.jne r) = [0x56#8, r] ∧ FetchFaults 0x56#8 2 ∧
    ∀ s : State,
      (8 ≤ r.toNat → TakesFault (exec (.jne r) s) s .invalidRegister r.toNat) ∧
      (∀ a : Reg, r.toNat = a.val → ∃ t, exec (.jne r) s = .next t ∧
        (s.fl.getLsbD 0 = false → t.pc.toNat = (s.reg a).toNat) ∧ (s.fl.getLsbD 0 = true → t.pc = s.pc + 2#9) ∧
        RegsKept [] s t ∧ MemKept [] s t ∧ t.fl = s.fl ∧ t.run = s.run ∧ t.out = s.out)

/-- The branches after a comparison, spec/43_branch.md R121, R122 and the document's property quoted there (with decisions D2, D5,
D11 as `CompareSetsExactlyOneFlag` has them): after CMP a, b, JEQ goes to its target iff the two registers were equal and JNE iff
they were not; each falls through otherwise. -/
def Obligations.BranchFollowsTheLastComparison : Prop :=
  ∀ (s : State) (a b r : Byte) (ra rb rr : Reg), a.toNat = ra.val → b.toNat = rb.val → r.toNat = rr.val →
    ∃ t e n, exec (.cmp a b) s = .next t ∧ exec (.jeq r) t = .next e ∧ exec (.jne r) t = .next n ∧
      (s.reg ra = s.reg rb → e.pc.toNat = (s.reg rr).toNat ∧ n.pc = t.pc + 2#9) ∧
      (s.reg ra ≠ s.reg rb → e.pc = t.pc + 2#9 ∧ n.pc.toNat = (s.reg rr).toNat)

/-! ## Faults -/

/-- spec/60_exceptions.md section 1 (R132): every instruction with a register-index operand raises InvalidRegister exactly when
one is 8..255, with the first offending byte as info (op1 before op2); an immediate is no index, and an instruction whose indices
are all valid never raises it. That the two cases are `wellFormed = false` and `wellFormed = true` is no rule of the spec: "well
formed" is the model's term, its own choice (log 19). -/
def Obligations.InvalidRegisterIffIndexOutOfRange : Prop :=
  ∀ (i : Instr) (s : State), s.run = .running →
    (∀ bad, (registerOperands i).find? (fun op => decide (8 ≤ op.toNat)) = some bad →
      i.wellFormed = false ∧ TakesFault (exec i s) s .invalidRegister bad.toNat) ∧
    ((registerOperands i).find? (fun op => decide (8 ≤ op.toNat)) = none →
      i.wellFormed = true ∧
      ∃ t, exec i s = .next t ∧ ∀ fpc info, t.run ≠ .faulted .invalidRegister fpc info)

/-- spec/60_exceptions.md R135, R136: a step raises StackOverflow exactly for a PUSH or CALL that reaches its push with SP = 0, and
StackUnderflow exactly for a POP or RET that reaches its pop with SP at or above 0xF4; the recorded info is SP. -/
def Obligations.StackFaultsComeFromTheStackLimits : Prop :=
  ∀ s t : State, s.run = .running → step s = .next t →
    (∀ fpc info, t.run = .faulted .stackOverflow fpc info ↔
      fpc = s.pc ∧ info = 0 ∧ s.sp.toNat = 0 ∧ ∃ r : Byte, r.toNat ≤ 7 ∧
        (fetch s = .ok (.push r) ∨ (fetch s = .ok (.call r) ∧ s.pc.toNat + 2 ≤ 255))) ∧
    (∀ fpc info, t.run = .faulted .stackUnderflow fpc info ↔
      fpc = s.pc ∧ info = s.sp.toNat ∧ 0xF4 ≤ s.sp.toNat ∧
        (fetch s = .ok .ret ∨ ∃ r : Byte, r.toNat ≤ 7 ∧ fetch s = .ok (.pop r)))

/-- spec/60_exceptions.md R133: the ALU raises UnsupportedOperation for an op outside ADD, MUL, CMP, and no program can raise
it: no step leads to that cause. -/
def Obligations.UnsupportedOperationIsTheGuardNoProgramReaches : Prop :=
  (∀ (n : Nat) (dest src : Reg) (s : State), aluApply (.other n) dest src s = .error ⟨.unsupportedOperation, n⟩) ∧
  (∀ (s t : State) (fpc : Pc) (info : Nat), step s = .next t → t.run ≠ .faulted .unsupportedOperation fpc info)

/-- spec/60_exceptions.md R131 (with decision D7 for CALL, and the info as spec/20_memory.md R44 infers it): from a legal state
OutOfBounds arises in exactly three ways, always with address 256: the opcode fetch at 256, an operand byte at 256, or a CALL with a
valid register at 254. -/
def Obligations.OutOfBoundsArisesInThreeWays : Prop :=
  ∀ s t : State, s.Inv → s.run = .running → step s = .next t → ∀ fpc info,
    t.run = .faulted .outOfBounds fpc info ↔
      fpc = s.pc ∧ info = 256 ∧
        (s.pc.toNat = 256 ∨
         (∃ o, s.pc.toNat ≤ 255 ∧ decodeOpcode (s.mem.byteAt s.pc.toNat) = some o ∧ 255 < s.pc.toNat + o.arity) ∨
         (s.pc.toNat = 254 ∧ ∃ r : Byte, r.toNat ≤ 7 ∧ fetch s = .ok (.call r)))

/-- spec/60_exceptions.md R139 (decision D10), R140, R141: a step that faults changes RUN alone, records the pc of the faulting
instruction, which pc still holds, and there is no step after it. -/
def Obligations.FaultsArePrecise : Prop :=
  ∀ (s t : State) (cause : Cause) (fpc : Pc) (info : Nat), step s = .next t → t.run = .faulted cause fpc info →
    s.run = .running ∧ fpc = s.pc ∧ t = { s with run := .faulted cause s.pc info } ∧ step t = .fault .coreFaulted

/-- spec/60_exceptions.md R147: when RUN is Halted or Faulted the core has no step, however long the run loop goes on. -/
def Obligations.TerminalStatesHaveNoStep : Prop :=
  ∀ s : State,
    (s.run = .halted → step s = .fault .coreHalted) ∧
    (s.run.isFaulted = true → step s = .fault .coreFaulted) ∧
    (s.run ≠ .running → ∀ k, runSteps k s = s)

/-- spec/70_reset_and_hazards.md R166 and the closing sentence of spec/93_implementation_defined.md part 1 (inferences of the
spec's own): a core has a step exactly while it is Running; no instruction is refused and none is stuck. -/
def Obligations.CoreStepsExactlyWhileRunning : Prop :=
  (∀ s : State, s.run = .running ↔ ∃ t, step s = .next t) ∧
  (∀ (i : Instr) (s : State), ∃ t, exec i s = .next t)

/-! ## Whole-machine rules -/

/-- spec/10_state.md R29: only CMP writes FL, and it writes all of it whatever FL was; JEQ and JNE read bit 0 only; every other
instruction neither reads nor writes FL, so it does the same with any other FL. -/
def Obligations.FlagsAreWrittenByCompareAndReadByBranches : Prop :=
  ∀ (i : Instr) (s t : State), exec i s = .next t →
    ((∀ a b, i ≠ .cmp a b) → t.fl = s.fl) ∧
    (∀ a b, i = .cmp a b → i.wellFormed = true → ∀ fl, exec i { s with fl := fl } = .next t) ∧
    ((∀ a b, i ≠ .cmp a b) → (∀ r, i ≠ .jeq r) → (∀ r, i ≠ .jne r) →
      ∀ fl, exec i { s with fl := fl } = .next { t with fl := fl }) ∧
    ((∃ r, i = .jeq r ∨ i = .jne r) → ∀ fl : Byte, fl.getLsbD 0 = s.fl.getLsbD 0 →
      exec i { s with fl := fl } = .next { t with fl := fl })

/-- spec/10_state.md R28, R33 (the bit places are decision D2): no program can observe FL bits 7:1. Two runs from states that
differ only there agree, after any number of steps, in everything else. -/
def Obligations.HiddenFlagBitsAreNeverObserved : Prop :=
  ∀ (k : Nat) (s t : State), SameButHiddenFlags s t → SameButHiddenFlags (runSteps k s) (runSteps k t)

/-- spec/20_memory.md R48 (an inference of the spec's own): only PUSH and CALL write memory, and only the byte at SP - 1. -/
def Obligations.OnlyPushAndCallStore : Prop :=
  ∀ s t : State, step s = .next t →
    ((∀ r, fetch s ≠ .ok (.push r) ∧ fetch s ≠ .ok (.call r)) → MemKept [] s t) ∧
    ((∃ r, fetch s = .ok (.push r) ∨ fetch s = .ok (.call r)) → MemKept [pushAddress s] s t)

/-- spec/10_state.md R32 with spec/40_system.md R82: a step leaves OUT alone or, for a PRINT, appends the one register value, so
over a run OUT only grows. -/
def Obligations.OutputGrowsOnlyByPrint : Prop :=
  (∀ s t : State, step s = .next t →
    t.out = s.out ∨ ∃ (r : Byte) (a : Reg), r.toNat = a.val ∧ fetch s = .ok (.print r) ∧ t.out = s.out ++ [s.reg a]) ∧
  (∀ (k : Nat) (s : State), s.out <+: (runSteps k s).out)

/-- spec/40_system.md R80 ("the only planned termination path") with spec/30_encoding.md R75 step 5: a step enters Halted only by
fetching HALT. -/
def Obligations.OnlyHaltEntersHalted : Prop :=
  ∀ s t : State, step s = .next t → (t.run = .halted ↔ fetch s = .ok .halt)

/-- spec/10_state.md R27 (decision D6): after a step that does not fault, pc is the exact sum pc + 1 + n, never wrapped, for every
instruction but the control transfers; a control transfer assigns a byte, or for JEQ and JNE falls through to that sum. -/
def Obligations.ProgramCounterNeverWraps : Prop :=
  ∀ (s t : State) (i : Instr), fetch s = .ok i → step s = .next t → t.run.isFaulted = false →
    (isTransfer i = false → t.pc.toNat = s.pc.toNat + i.length) ∧
    (isTransfer i = true → t.pc.toNat ≤ 255 ∨ ((∃ r, i = .jeq r ∨ i = .jne r) ∧ t.pc.toNat = s.pc.toNat + i.length))

/-- The invariant of the model: memory in canonical form (log 18), pc in 0..256 (spec/10_state.md R26, decision D6), FL one of 0x00,
0x01, 0x02, 0x04 (R28, decision D2), and a recorded fault one that spec/60_exceptions.md R131-R138 describes. Every step keeps it. -/
def Obligations.LegalStateIsKeptByEveryStep : Prop :=
  ∀ s t : State, s.Inv → step s = .next t → t.Inv

/-- The invariant holds at the first fetch of every run, and so throughout every run of every image (log 18 for the canonical
form; decisions D2, D6 as in `LegalStateIsKeptByEveryStep`). -/
def Obligations.LegalThroughoutEveryRun : Prop :=
  ∀ (image : List Byte) (s : State), boot image = some s → ∀ k, (runSteps k s).Inv

/-- The invariant holds right after reset: a sanity statement. -/
def Obligations.ResetStateIsLegal : Prop := State.reset.Inv

/-! ## Reset, load and the end of a run -/

/-- spec/10_state.md R34, spec/70_reset_and_hazards.md R160, R161; r0..r6 = 0 is decision D4 and FL = 0 decision D3: an image of up
to 256 bytes stands at address 0 upward, every other byte is zero, and the rest of the state is the reset state. -/
def Obligations.BootLeavesTheResetState : Prop :=
  ∀ image : List Byte, image.length ≤ 256 → ∃ s, boot image = some s ∧
    (∀ a, a ≤ 255 → s.memRead a = .ok (image.getD a 0x00#8)) ∧
    (∀ r : Reg, r.val ≤ 6 → s.reg r = 0x00#8) ∧ s.sp = 0xF4#8 ∧ s.pc = 0#9 ∧ s.fl = 0x00#8 ∧
    s.run = .running ∧ s.out = []

/-- spec/70_reset_and_hazards.md R161 (decision D19): an image of more than 256 bytes is a load failure, after which the core
never starts. -/
def Obligations.OversizedImageNeverStarts : Prop :=
  ∀ (image : List Byte) (s : State), 256 < image.length → s.load image = none ∧ boot image = none

/-- spec/70_reset_and_hazards.md R167: a run ends in exactly one of three ways, Halted, Faulted or a hang. -/
def Obligations.RunEndsInExactlyOneWay : Prop :=
  ∀ s : State, (Halts s ∨ Faults s ∨ Hangs s) ∧ ¬ (Halts s ∧ Faults s) ∧ ¬ (Halts s ∧ Hangs s) ∧ ¬ (Faults s ∧ Hangs s)

/-- spec/60_exceptions.md R148 (the numbers are the host's, decision D23, log 7): a running core has no terminal status, Halted maps to
success and Faulted to the runtime-fault class, whose exit code is not zero. -/
def Obligations.TerminalStatusMapsToExitClass : Prop :=
  RunState.running.exitClass = none ∧ RunState.halted.exitClass = some .success ∧
  (∀ (c : Cause) (fpc : Pc) (info : Nat), (RunState.faulted c fpc info).exitClass = some .runtimeFault) ∧
  ExitClass.runtimeFault.exitCode ≠ 0

/-! ## The stack laws -/

/-- spec/42_stack.md R107: pushes followed by the same count of pops give the values in reverse push order and SP its value
before the pushes, when no push overflows and no pop underflows, and when what runs in between leaves SP and the stack bytes as the
pushes left them. The canonical form of memory (log 18) is a premise only, kept by every step. -/
def Obligations.PushesThenPopsAreLastInFirstOut : Prop :=
  ∀ (vs : List Byte) (s : State), s.mem.wf = true → vs.length ≤ s.sp.toNat → s.sp.toNat ≤ 0xF4 →
    ∃ t, pushAll vs s = .ok t ∧
      ∀ t' : State, t'.sp = t.sp →
        (∀ a, t.sp.toNat ≤ a → a < s.sp.toNat → t'.memRead a = t.memRead a) →
        ∃ u, popAll vs.length t' = .ok (vs.reverse, u) ∧ u.sp = s.sp

/-- spec/42_stack.md R108: CALL then RET returns pc to exactly the instruction after the CALL, whatever ran in between, when it left
SP and the return-address byte as CALL left them. The premises are that the CALL itself completes and that the RET does not
underflow (SP at or below 0xF4 before the CALL); the canonical form of memory (log 18), kept by every step, is a premise only. -/
def Obligations.CallThenRetReturnsAfterTheCall : Prop :=
  ∀ (s : State) (r : Byte) (a : Reg), r.toNat = a.val → s.mem.wf = true → s.pc.toNat + 2 ≤ 255 →
    s.sp.toNat ≠ 0 → s.sp.toNat ≤ 0xF4 →
    ∃ t, exec (.call r) s = .next t ∧
      ∀ u : State, u.sp = t.sp → u.memRead t.sp.toNat = t.memRead t.sp.toNat →
        ∃ v, exec .ret u = .next v ∧ v.pc.toNat = s.pc.toNat + (Instr.call r).length ∧ v.sp = s.sp

/-- The range invariant of spec/42_stack.md R102: from an SP in 0..0xF4 neither primitive leaves SP outside that range; a push
raises at SP = 0 and else moves SP down by one, a pop raises at SP = 0xF4 and else moves SP up by one. -/
def Obligations.StackPointerStaysInItsRange : Prop :=
  ∀ (s : State) (v : Byte), s.sp.toNat ≤ 0xF4 →
    (∀ t, s.push v = .ok t → t.sp.toNat + 1 = s.sp.toNat ∧ t.sp.toNat ≤ 0xF4) ∧
    (∀ w t, s.pop = .ok (w, t) → t.sp.toNat = s.sp.toNat + 1 ∧ t.sp.toNat ≤ 0xF4) ∧
    ((∃ e, s.push v = .error e) ↔ s.sp.toNat = 0) ∧
    ((∃ e, s.pop = .error e) ↔ s.sp.toNat = 0xF4)

/-- spec/42_stack.md R101, its last sentence (an inference of the spec's own): a program that has moved SP above 0xF4 can push but
not pop what it pushed. -/
def Obligations.PopAboveTheInitialTopUnderflows : Prop :=
  ∀ (s : State) (v : Byte), 0xF4 < s.sp.toNat →
    ∃ t, s.push v = .ok t ∧ t.pop = .error ⟨.stackUnderflow, s.sp.toNat - 1⟩

/-- spec/20_memory.md R57 and spec/70_reset_and_hazards.md R164 (decision D16): a PUSH that stores onto the very next instruction's
opcode decides what the next step runs. -/
def Obligations.StoredCodeIsFetchedNext : Prop :=
  ∀ (s : State) (r : Byte) (a : Reg), r.toNat = a.val → s.mem.wf = true → s.run = .running →
    s.sp.toNat ≠ 0 → pushAddress s = s.pc.toNat + 2 →
    ∃ t, exec (.push r) s = .next t ∧ t.memRead t.pc.toNat = .ok (s.reg a) ∧
      (decodeOpcode (s.reg a) = none → TakesFault (step t) t .illegalInstruction (s.reg a).toNat) ∧
      (∀ o, decodeOpcode (s.reg a) = some o → o.arity = 0 → step t = exec (o.instr 0 0) t)
end

