-- ==== Sys2Proof/Laws/Decode.lean ====
section
/-! SUPPORT. The opcode tables of the decoder and of the encoder agree (spec/30_encoding.md R64, R68). -/

namespace Sys2Proof

@[simp] theorem decodeOpcode_byte (o : Opcode) : decodeOpcode o.byte = some o := by cases o <;> rfl

/-- The bytes that decode are exactly R64's. -/
theorem decodeOpcode_eq_some {b : Byte} {o : Opcode} : decodeOpcode b = some o ↔ b = o.byte := by
  refine ⟨fun h => ?_, fun h => h ▸ decodeOpcode_byte o⟩
  refine BitVec.eq_of_toNat_eq ?_
  unfold decodeOpcode at h
  split at h <;> simp_all <;> subst h <;> rfl

theorem opcode_instr (o : Opcode) (op1 op2 : Byte) : (o.instr op1 op2).opcode = o := by cases o <;> rfl

theorem arity_le_two (o : Opcode) : o.arity ≤ 2 := by cases o <;> decide

end Sys2Proof
end

