-- ==== Sys2Proof/Laws/Memory.lean ====
section
/-! SUPPORT. The laws of memory as a list in canonical form: every operation keeps the form, a read after a write gives
the value written, and a write leaves every other address alone (spec/20_memory.md R43). -/

namespace Sys2Proof.Machine

@[simp] theorem memSize_eq : Config.memSize = 256 := rfl
@[simp] theorem numRegs_eq : Config.numRegs = 8 := rfl
@[simp] theorem unwrittenByte_eq : Config.unwrittenByte = 0x00#8 := rfl
@[simp] theorem spInit_eq : Config.spInit = 0xF4#8 := rfl

theorem wfFrom_cons {lo a : Nat} {v : Byte} {rest : Memory} :
    Memory.wfFrom lo ((a, v) :: rest) = true ↔
      lo ≤ a ∧ a < 256 ∧ v ≠ 0x00#8 ∧ Memory.wfFrom (a + 1) rest = true := by
  simp [Memory.wfFrom, and_assoc]

/-- A bound on the addresses may be lowered. -/
theorem wfFrom_mono {lo lo' : Nat} {m : Memory} (hlo : lo ≤ lo') (h : Memory.wfFrom lo' m = true) :
    Memory.wfFrom lo m = true := by
  cases m with
  | nil => rfl
  | cons c rest =>
    obtain ⟨h1, h2, h3, h4⟩ := wfFrom_cons.mp h
    exact wfFrom_cons.mpr ⟨by omega, h2, h3, h4⟩

/-- Below the first address everything reads as unwritten. -/
theorem byteAt_of_wfFrom {lo a : Nat} {m : Memory} (h : Memory.wfFrom lo m = true) (ha : a < lo) :
    m.byteAt a = 0x00#8 := by
  induction m generalizing lo with
  | nil => rfl
  | cons c rest ih =>
    obtain ⟨h1, -, -, h4⟩ := wfFrom_cons.mp h
    have hne : c.1 ≠ a := by omega
    simp only [Memory.byteAt, if_neg hne]
    exact ih h4 (by omega)

/-- Above the address space everything reads as unwritten. -/
theorem byteAt_of_large {lo a : Nat} {m : Memory} (h : Memory.wfFrom lo m = true) (ha : 256 ≤ a) :
    m.byteAt a = 0x00#8 := by
  induction m generalizing lo with
  | nil => rfl
  | cons c rest ih =>
    obtain ⟨-, h2, -, h4⟩ := wfFrom_cons.mp h
    have hne : c.1 ≠ a := by omega
    simp only [Memory.byteAt, if_neg hne]
    exact ih h4

theorem wfFrom_memory_cons {lo a : Nat} {v : Byte} {rest : Memory} (hlo : lo ≤ a) (ha : a < 256)
    (h : Memory.wfFrom (a + 1) rest = true) : Memory.wfFrom lo (Memory.cons a v rest) = true := by
  unfold Memory.cons
  split
  · exact wfFrom_mono (by omega) h
  · exact wfFrom_cons.mpr ⟨hlo, ha, by simpa using ‹_›, h⟩

theorem byteAt_memory_cons {a b : Nat} {v : Byte} {rest : Memory} (h : Memory.wfFrom (a + 1) rest = true) :
    (Memory.cons a v rest).byteAt b = if b = a then v else rest.byteAt b := by
  unfold Memory.cons
  split
  · split
    · subst_vars; exact byteAt_of_wfFrom h (by omega)
    · rfl
  · simp only [Memory.byteAt, eq_comm]

theorem byteAt_memory_cons_ne {a b : Nat} {v : Byte} {rest : Memory} (hb : b ≠ a) :
    (Memory.cons a v rest).byteAt b = rest.byteAt b := by
  unfold Memory.cons
  split
  · rfl
  · simp [Memory.byteAt, hb.symm]

theorem update_wfFrom {lo a : Nat} {v : Byte} {m : Memory} (h : Memory.wfFrom lo m = true) (hlo : lo ≤ a)
    (ha : a < 256) : Memory.wfFrom lo (m.update a v) = true := by
  induction m generalizing lo with
  | nil => exact wfFrom_memory_cons hlo ha rfl
  | cons c rest ih =>
    obtain ⟨k, w⟩ := c
    obtain ⟨h1, h2, h3, h4⟩ := wfFrom_cons.mp h
    simp only [Memory.update]
    split
    · exact wfFrom_memory_cons hlo ha (wfFrom_cons.mpr ⟨by omega, h2, h3, h4⟩)
    · split
      · subst_vars; exact wfFrom_memory_cons hlo ha h4
      · exact wfFrom_cons.mpr ⟨h1, h2, h3, ih h4 (by omega)⟩

/-- A write keeps the canonical form. -/
theorem update_wf {a : Nat} {v : Byte} {m : Memory} (h : m.wf = true) (ha : a < 256) : (m.update a v).wf = true :=
  update_wfFrom h (Nat.zero_le a) ha

theorem byteAt_update_from {lo a b : Nat} {v : Byte} {m : Memory} (h : Memory.wfFrom lo m = true) :
    (m.update a v).byteAt b = if b = a then v else m.byteAt b := by
  induction m generalizing lo with
  | nil => exact byteAt_memory_cons rfl
  | cons c rest ih =>
    obtain ⟨k, w⟩ := c
    obtain ⟨h1, h2, h3, h4⟩ := wfFrom_cons.mp h
    simp only [Memory.update]
    split
    · exact byteAt_memory_cons (wfFrom_cons.mpr ⟨by omega, h2, h3, h4⟩)
    · split
      · subst_vars
        rw [byteAt_memory_cons h4]
        by_cases hb : b = k <;> simp [Memory.byteAt, hb, eq_comm]
      · simp only [Memory.byteAt, ih h4]
        by_cases hk : k = b
        · subst hk; simp [Ne.symm ‹_›]
        · simp [hk]

/-- A read after a write, at the same and at any other address (R43). -/
theorem byteAt_update {a b : Nat} {v : Byte} {m : Memory} (h : m.wf = true) :
    (m.update a v).byteAt b = if b = a then v else m.byteAt b := byteAt_update_from h

/-- A write leaves every other address alone, in canonical form or not (R43). -/
theorem byteAt_update_ne {a b : Nat} {v : Byte} {m : Memory} (hb : b ≠ a) :
    (m.update a v).byteAt b = m.byteAt b := by
  induction m with
  | nil => exact byteAt_memory_cons_ne hb
  | cons c rest ih =>
    obtain ⟨k, w⟩ := c
    simp only [Memory.update]
    split
    · exact byteAt_memory_cons_ne hb
    · split
      · subst_vars
        rw [byteAt_memory_cons_ne hb]
        simp [Memory.byteAt, hb.symm]
      · simp [Memory.byteAt, ih]

theorem storeBytes_wf {m : Memory} (h : m.wf = true) (a : Nat) (bs : List Byte) : (m.storeBytes a bs).wf = true := by
  induction bs generalizing m a with
  | nil => exact h
  | cons b bs ih =>
    refine ih ?_ (a + 1)
    split
    · exact update_wf h ‹_›
    · exact h

/-! ### The bounds-checked controller (R41, R42) -/

@[simp] theorem memRead_ok {s : State} {a : Nat} (ha : a < 256) : s.memRead a = .ok (s.mem.byteAt a) := if_pos ha
@[simp] theorem memRead_error {s : State} {a : Nat} (ha : 256 ≤ a) : s.memRead a = .error ⟨.outOfBounds, a⟩ :=
  if_neg (by simpa using ha)
@[simp] theorem memWrite_ok {s : State} {a : Nat} {v : Byte} (ha : a < 256) :
    s.memWrite a v = .ok (s.setMem (s.mem.update a v)) := if_pos ha
@[simp] theorem memWrite_error {s : State} {a : Nat} {v : Byte} (ha : 256 ≤ a) :
    s.memWrite a v = .error ⟨.outOfBounds, a⟩ := if_neg (by simpa using ha)

/-- All that MemRead can answer. -/
theorem memRead_cases (s : State) (a : Nat) :
    (a < 256 ∧ s.memRead a = .ok (s.mem.byteAt a)) ∨ (256 ≤ a ∧ s.memRead a = .error ⟨.outOfBounds, a⟩) := by
  rcases Nat.lt_or_ge a 256 with ha | ha
  · exact .inl ⟨ha, memRead_ok ha⟩
  · exact .inr ⟨ha, memRead_error ha⟩

/-- Reads depend on memory alone. -/
theorem memRead_congr {s t : State} (h : t.mem = s.mem) (a : Nat) : t.memRead a = s.memRead a := by
  simp [State.memRead, h]

end Sys2Proof.Machine
end

