-- ==== Sys2Proof/Laws/State.lean ====
section
/-! SUPPORT. One lemma per field per state update, so that no later proof unfolds a record update; and the register law. -/

namespace Sys2Proof.Machine

variable (s : State)

/-! ### setReg -/
@[simp] theorem setReg_mem (r : Reg) (v : Byte) : (s.setReg r v).mem = s.mem := rfl
@[simp] theorem setReg_pc (r : Reg) (v : Byte) : (s.setReg r v).pc = s.pc := rfl
@[simp] theorem setReg_fl (r : Reg) (v : Byte) : (s.setReg r v).fl = s.fl := rfl
@[simp] theorem setReg_run (r : Reg) (v : Byte) : (s.setReg r v).run = s.run := rfl
@[simp] theorem setReg_out (r : Reg) (v : Byte) : (s.setReg r v).out = s.out := rfl

/-- The register law, both halves (spec/10_state.md R25). -/
@[simp] theorem setReg_reg (r q : Reg) (v : Byte) : (s.setReg r v).reg q = if q = r then v else s.reg q := by
  simp [State.reg, State.setReg, Vector.getElem_set, Fin.ext_iff, eq_comm]

/-! ### setSp: a write of register 7 (R22) -/
theorem sp_eq : s.sp = s.reg 7 := rfl
theorem setSp_eq (v : Byte) : s.setSp v = s.setReg 7 v := rfl
@[simp] theorem setSp_mem (v : Byte) : (s.setSp v).mem = s.mem := rfl
@[simp] theorem setSp_pc (v : Byte) : (s.setSp v).pc = s.pc := rfl
@[simp] theorem setSp_fl (v : Byte) : (s.setSp v).fl = s.fl := rfl
@[simp] theorem setSp_run (v : Byte) : (s.setSp v).run = s.run := rfl
@[simp] theorem setSp_out (v : Byte) : (s.setSp v).out = s.out := rfl
@[simp] theorem setSp_sp (v : Byte) : (s.setSp v).sp = v := by simp [setSp_eq, sp_eq]
@[simp] theorem setSp_reg (q : Reg) (v : Byte) : (s.setSp v).reg q = if q = 7 then v else s.reg q := by simp [setSp_eq]
@[simp] theorem setReg_sp (r : Reg) (v : Byte) : (s.setReg r v).sp = if 7 = r then v else s.sp := by simp [sp_eq]

/-! ### setMem -/
@[simp] theorem setMem_mem (m : Memory) : (s.setMem m).mem = m := rfl
@[simp] theorem setMem_x (m : Memory) : (s.setMem m).x = s.x := rfl
@[simp] theorem setMem_reg (m : Memory) (r : Reg) : (s.setMem m).reg r = s.reg r := rfl
@[simp] theorem setMem_sp (m : Memory) : (s.setMem m).sp = s.sp := rfl
@[simp] theorem setMem_pc (m : Memory) : (s.setMem m).pc = s.pc := rfl
@[simp] theorem setMem_fl (m : Memory) : (s.setMem m).fl = s.fl := rfl
@[simp] theorem setMem_run (m : Memory) : (s.setMem m).run = s.run := rfl
@[simp] theorem setMem_out (m : Memory) : (s.setMem m).out = s.out := rfl

/-! ### advance -/
@[simp] theorem advance_mem (n : Nat) : (s.advance n).mem = s.mem := rfl
@[simp] theorem advance_x (n : Nat) : (s.advance n).x = s.x := rfl
@[simp] theorem advance_reg (n : Nat) (r : Reg) : (s.advance n).reg r = s.reg r := rfl
@[simp] theorem advance_sp (n : Nat) : (s.advance n).sp = s.sp := rfl
@[simp] theorem advance_pc (n : Nat) : (s.advance n).pc = s.pc + BitVec.ofNat 9 (1 + n) := rfl
@[simp] theorem advance_fl (n : Nat) : (s.advance n).fl = s.fl := rfl
@[simp] theorem advance_run (n : Nat) : (s.advance n).run = s.run := rfl
@[simp] theorem advance_out (n : Nat) : (s.advance n).out = s.out := rfl

/-! ### jump -/
@[simp] theorem jump_mem (v : Byte) : (s.jump v).mem = s.mem := rfl
@[simp] theorem jump_x (v : Byte) : (s.jump v).x = s.x := rfl
@[simp] theorem jump_reg (v : Byte) (r : Reg) : (s.jump v).reg r = s.reg r := rfl
@[simp] theorem jump_sp (v : Byte) : (s.jump v).sp = s.sp := rfl
@[simp] theorem jump_pc (v : Byte) : (s.jump v).pc = v.setWidth 9 := rfl
@[simp] theorem jump_fl (v : Byte) : (s.jump v).fl = s.fl := rfl
@[simp] theorem jump_run (v : Byte) : (s.jump v).run = s.run := rfl
@[simp] theorem jump_out (v : Byte) : (s.jump v).out = s.out := rfl

/-! ### emit -/
@[simp] theorem emit_mem (v : Byte) : (s.emit v).mem = s.mem := rfl
@[simp] theorem emit_x (v : Byte) : (s.emit v).x = s.x := rfl
@[simp] theorem emit_reg (v : Byte) (r : Reg) : (s.emit v).reg r = s.reg r := rfl
@[simp] theorem emit_sp (v : Byte) : (s.emit v).sp = s.sp := rfl
@[simp] theorem emit_pc (v : Byte) : (s.emit v).pc = s.pc := rfl
@[simp] theorem emit_fl (v : Byte) : (s.emit v).fl = s.fl := rfl
@[simp] theorem emit_run (v : Byte) : (s.emit v).run = s.run := rfl
@[simp] theorem emit_out (v : Byte) : (s.emit v).out = s.out ++ [v] := rfl

/-! ### halt -/
@[simp] theorem halt_mem : s.halt.mem = s.mem := rfl
@[simp] theorem halt_x : s.halt.x = s.x := rfl
@[simp] theorem halt_reg (r : Reg) : s.halt.reg r = s.reg r := rfl
@[simp] theorem halt_sp : s.halt.sp = s.sp := rfl
@[simp] theorem halt_pc : s.halt.pc = s.pc := rfl
@[simp] theorem halt_fl : s.halt.fl = s.fl := rfl
@[simp] theorem halt_run : s.halt.run = .halted := rfl
@[simp] theorem halt_out : s.halt.out = s.out := rfl

/-! ### setFl -/
@[simp] theorem setFl_mem (v : Byte) : (s.setFl v).mem = s.mem := rfl
@[simp] theorem setFl_x (v : Byte) : (s.setFl v).x = s.x := rfl
@[simp] theorem setFl_reg (v : Byte) (r : Reg) : (s.setFl v).reg r = s.reg r := rfl
@[simp] theorem setFl_sp (v : Byte) : (s.setFl v).sp = s.sp := rfl
@[simp] theorem setFl_pc (v : Byte) : (s.setFl v).pc = s.pc := rfl
@[simp] theorem setFl_fl (v : Byte) : (s.setFl v).fl = v := rfl
@[simp] theorem setFl_run (v : Byte) : (s.setFl v).run = s.run := rfl
@[simp] theorem setFl_out (v : Byte) : (s.setFl v).out = s.out := rfl

/-! ### raise: a fault changes RUN only (spec/60_exceptions.md R139) -/
@[simp] theorem raise_mem (t : Trap) : (s.raise t).mem = s.mem := rfl
@[simp] theorem raise_x (t : Trap) : (s.raise t).x = s.x := rfl
@[simp] theorem raise_reg (t : Trap) (r : Reg) : (s.raise t).reg r = s.reg r := rfl
@[simp] theorem raise_sp (t : Trap) : (s.raise t).sp = s.sp := rfl
@[simp] theorem raise_pc (t : Trap) : (s.raise t).pc = s.pc := rfl
@[simp] theorem raise_fl (t : Trap) : (s.raise t).fl = s.fl := rfl
@[simp] theorem raise_run (t : Trap) : (s.raise t).run = .faulted t.cause s.pc t.info := rfl
@[simp] theorem raise_out (t : Trap) : (s.raise t).out = s.out := rfl

/-! ### start -/
@[simp] theorem start_mem : s.start.mem = s.mem := rfl
@[simp] theorem start_reg (r : Reg) : s.start.reg r = s.reg r := rfl
@[simp] theorem start_pc : s.start.pc = s.pc := rfl
@[simp] theorem start_fl : s.start.fl = s.fl := rfl
@[simp] theorem start_run : s.start.run = .running := rfl
@[simp] theorem start_out : s.start.out = s.out := rfl

/-- Two states with the same fields are the same state; registers are compared one by one. -/
theorem state_eq_of_regs {s t : State} (hm : t.mem = s.mem) (hx : ∀ r, t.reg r = s.reg r) (hp : t.pc = s.pc)
    (hf : t.fl = s.fl) (hr : t.run = s.run) (ho : t.out = s.out) : t = s := by
  have hv : t.x = s.x := Vector.ext fun i hi => hx ⟨i, hi⟩
  cases s; cases t; simp_all

end Sys2Proof.Machine
end

