-- ==== Sys2Proof/Laws/Ops.lean ====
section
/-! SUPPORT. One lemma per shared operation that says everything it can do, cited instead of unfolding it. -/

namespace Sys2Proof.Machine

variable {s t : State} {v : Byte}

/-! ### Except and commit -/

@[simp] theorem except_bind_ok {ε α β : Type} (a : α) (f : α → Except ε β) : (Except.ok a >>= f) = f a := rfl
@[simp] theorem except_bind_error {ε α β : Type} (e : ε) (f : α → Except ε β) :
    ((Except.error e : Except ε α) >>= f) = .error e := rfl

/-- A bind that answers a value had a value to work on. -/
theorem except_bind_eq_ok {ε α β : Type} {m : Except ε α} {f : α → Except ε β} {b : β} :
    (m >>= f) = .ok b ↔ ∃ a, m = .ok a ∧ f a = .ok b := by
  cases m <;> simp

@[simp] theorem commit_ok (s t : State) : commit s (.ok t) = .next t := rfl
@[simp] theorem commit_error (s : State) (e : Trap) : commit s (.error e) = .next (s.raise e) := rfl

/-- An instruction always ends in a next state: its handler's, or the fault taken where it began (R139, R140). -/
theorem commit_cases {h : Except Trap State} (hc : commit s h = .next t) :
    h = .ok t ∨ ∃ e, h = .error e ∧ t = s.raise e := by
  cases h with
  | ok u => exact .inl (by simpa using hc)
  | error e => exact .inr ⟨e, rfl, by simpa [eq_comm] using hc⟩

theorem commit_eq_next (s : State) (h : Except Trap State) : ∃ t, commit s h = .next t := by
  cases h <;> simp

/-! ### CheckReg (spec/10_state.md R24) -/

theorem checkReg_ok {i : Byte} {r : Reg} (h : i.toNat = r.val) : checkReg i = .ok r := by
  have hlt : i.toNat < 8 := by omega
  simp only [checkReg, dif_pos hlt]
  exact congrArg _ (Fin.ext h)

theorem checkReg_error {i : Byte} (h : 8 ≤ i.toNat) : checkReg i = .error ⟨.invalidRegister, i.toNat⟩ :=
  dif_neg (by omega)

theorem checkReg_cases (i : Byte) :
    (∃ r : Reg, i.toNat = r.val ∧ checkReg i = .ok r) ∨
      (8 ≤ i.toNat ∧ checkReg i = .error ⟨.invalidRegister, i.toNat⟩) := by
  rcases Nat.lt_or_ge i.toNat 8 with h | h
  · exact .inl ⟨⟨i.toNat, h⟩, rfl, checkReg_ok rfl⟩
  · exact .inr ⟨h, checkReg_error h⟩

theorem sp_toNat_eq_zero : s.sp.toNat = 0 ↔ s.sp = 0 :=
  ⟨fun h => BitVec.eq_of_toNat_eq h, fun h => by simp [h]⟩

/-! ### The stack (spec/42_stack.md R100, R101) -/

theorem push_error (h : s.sp = 0) : s.push v = .error ⟨.stackOverflow, 0⟩ := by
  simp [State.push, h]

theorem pushAddress_lt (s : State) : pushAddress s < 256 := by
  have := s.sp.isLt
  unfold pushAddress
  omega

theorem push_ok (h : s.sp ≠ 0) :
    s.push v = .ok ((s.setSp (s.sp - 1)).setMem (s.mem.update (pushAddress s) v)) := by
  simp only [State.push, if_neg h, memWrite_ok (pushAddress_lt s), setSp_mem]

/-- After a push SP is the address it stored to. -/
theorem pushed_sp (h : s.sp ≠ 0) : (s.sp - 1).toNat = pushAddress s := by
  have : s.sp.toNat ≠ 0 := fun hz => h (BitVec.eq_of_toNat_eq (by simpa using hz))
  unfold pushAddress
  bv_omega

theorem push_cases (s : State) (v : Byte) :
    (s.sp = 0 ∧ s.push v = .error ⟨.stackOverflow, 0⟩) ∨
      (s.sp ≠ 0 ∧ s.push v = .ok ((s.setSp (s.sp - 1)).setMem (s.mem.update (pushAddress s) v))) := by
  by_cases h : s.sp = 0
  · exact .inl ⟨h, push_error h⟩
  · exact .inr ⟨h, push_ok h⟩

theorem pop_error (h : 0xF4 ≤ s.sp.toNat) : s.pop = .error ⟨.stackUnderflow, s.sp.toNat⟩ :=
  if_pos (by simpa [BitVec.le_def] using h)

theorem pop_ok (h : s.sp.toNat < 0xF4) :
    s.pop = .ok (s.mem.byteAt s.sp.toNat, s.setSp (s.sp + 1)) := by
  have hn : ¬ Config.spInit ≤ s.sp := by simpa [BitVec.le_def] using h
  have hlt : s.sp.toNat < 256 := by omega
  simp only [State.pop, if_neg hn, memRead_ok hlt, except_bind_ok]

theorem pop_cases (s : State) :
    (0xF4 ≤ s.sp.toNat ∧ s.pop = .error ⟨.stackUnderflow, s.sp.toNat⟩) ∨
      (s.sp.toNat < 0xF4 ∧ s.pop = .ok (s.mem.byteAt s.sp.toNat, s.setSp (s.sp + 1))) := by
  rcases Nat.lt_or_ge s.sp.toNat 0xF4 with h | h
  · exact .inr ⟨h, pop_ok h⟩
  · exact .inl ⟨h, pop_error h⟩

theorem returnAddress_ok (h : s.pc.toNat + 2 < 256) :
    returnAddress s = .ok (BitVec.ofNat 8 (s.pc.toNat + 2)) := if_pos h

/-- CALL's return address (R105). -/
theorem returnAddress_cases (s : State) :
    (s.pc.toNat + 2 < 256 ∧ returnAddress s = .ok (BitVec.ofNat 8 (s.pc.toNat + 2))) ∨
      (256 ≤ s.pc.toNat + 2 ∧ returnAddress s = .error ⟨.outOfBounds, s.pc.toNat + 2⟩) := by
  rcases Nat.lt_or_ge (s.pc.toNat + 2) 256 with h | h
  · exact .inl ⟨h, returnAddress_ok h⟩
  · exact .inr ⟨h, if_neg (by simpa using h)⟩

/-! ### Flags and the ALU (spec/41_alu.md R90, R93) -/

@[simp] theorem compareFlags_self (d : Byte) : compareFlags d d = flagsEqual := by simp [compareFlags]
theorem compareFlags_less {d c : Byte} (h : d.toNat < c.toNat) : compareFlags d c = flagsLess := by
  have : ¬ (c.toNat : Int) - (d.toNat : Int) = 0 := by omega
  simp [compareFlags, this, h]
theorem compareFlags_greater {d c : Byte} (h : c.toNat < d.toNat) : compareFlags d c = flagsGreater := by
  have h1 : ¬ (c.toNat : Int) - (d.toNat : Int) = 0 := by omega
  have h2 : ¬ d.toNat < c.toNat := by omega
  simp [compareFlags, h1, h2]

theorem compareFlags_cases (d c : Byte) :
    (d = c ∧ compareFlags d c = flagsEqual) ∨ (d.toNat < c.toNat ∧ compareFlags d c = flagsLess) ∨
      (c.toNat < d.toNat ∧ compareFlags d c = flagsGreater) := by
  rcases Nat.lt_trichotomy d.toNat c.toNat with h | h | h
  · exact .inr (.inl ⟨h, compareFlags_less h⟩)
  · obtain rfl := BitVec.eq_of_toNat_eq h
    exact .inl ⟨rfl, compareFlags_self d⟩
  · exact .inr (.inr ⟨h, compareFlags_greater h⟩)

@[simp] theorem keepByte_toNat (n : Nat) : (keepByte n).toNat = n % 256 := by simp [keepByte]

/-- All that an ALU handler can do for an op of the contract. -/
theorem aluHandler_cases (op : AluOp) (op1 op2 : Byte) (s : State) :
    (∃ a b : Reg, op1.toNat = a.val ∧ op2.toNat = b.val ∧
        aluHandler op op1 op2 s = (aluApply op a b s >>= fun t => .ok (t.advance 2))) ∨
      (8 ≤ op1.toNat ∧ aluHandler op op1 op2 s = .error ⟨.invalidRegister, op1.toNat⟩) ∨
      (op1.toNat < 8 ∧ 8 ≤ op2.toNat ∧ aluHandler op op1 op2 s = .error ⟨.invalidRegister, op2.toNat⟩) := by
  rcases checkReg_cases op1 with ⟨a, ha, ea⟩ | ⟨ha, ea⟩
  · rcases checkReg_cases op2 with ⟨b, hb, eb⟩ | ⟨hb, eb⟩
    · exact .inl ⟨a, b, ha, hb, by simp [aluHandler, ea, eb]⟩
    · exact .inr (.inr ⟨by omega, hb, by simp [aluHandler, ea, eb]⟩)
  · exact .inr (.inl ⟨ha, by simp [aluHandler, ea]⟩)

/-- All that a branch handler can do. -/
theorem branchHandler_cases (taken : Bool) (op1 : Byte) (s : State) :
    (∃ r : Reg, op1.toNat = r.val ∧
        branchHandler taken op1 s = .ok (if taken then s.jump (s.reg r) else s.advance 1)) ∨
      (8 ≤ op1.toNat ∧ branchHandler taken op1 s = .error ⟨.invalidRegister, op1.toNat⟩) := by
  rcases checkReg_cases op1 with ⟨r, hr, er⟩ | ⟨hr, er⟩
  · exact .inl ⟨r, hr, by simp [branchHandler, er]⟩
  · exact .inr ⟨hr, by simp [branchHandler, er]⟩

end Sys2Proof.Machine
end

