-- ==== Sys2Proof/Laws/Exec.lean ====
section
/-! SUPPORT. What each instruction can do: its own effect, or a fault taken where it began. Proofs about every instruction
cite these inversion lemmas and do not unfold a meaning. -/

namespace Sys2Proof.Machine

variable {s t : State}

/-- Every instruction ends in a next state. -/
theorem exec_total (i : Instr) (s : State) : ∃ t, exec i s = .next t := by
  cases i <;> simp only [exec, execHalt, execLoadImmediate, execPrint, execAdd, execMul, execCmp, execPush, execPop,
    execCall, execRet, execJmp, execJeq, execJne] <;> exact commit_eq_next _ _

/-! ### The effect of each instruction where it completes -/

theorem exec_halt_ok (s : State) : exec .halt s = .next (s.halt.advance 0) := rfl

theorem exec_loadImmediate_ok {r imm : Byte} {a : Reg} (h : r.toNat = a.val) :
    exec (.loadImmediate r imm) s = .next ((s.setReg a imm).advance 2) := by
  simp [exec, execLoadImmediate, immediate, checkReg_ok h]

theorem exec_print_ok {r : Byte} {a : Reg} (h : r.toNat = a.val) :
    exec (.print r) s = .next ((s.emit (s.reg a)).advance 1) := by
  simp [exec, execPrint, checkReg_ok h]

theorem exec_add_ok {a b : Byte} {ra rb : Reg} (ha : a.toNat = ra.val) (hb : b.toNat = rb.val) :
    exec (.add a b) s =
      .next ((s.setReg ra (keepByte ((s.reg ra).toNat + (s.reg rb).toNat))).advance 2) := by
  simp [exec, execAdd, aluHandler, aluApply, checkReg_ok ha, checkReg_ok hb]

theorem exec_mul_ok {a b : Byte} {ra rb : Reg} (ha : a.toNat = ra.val) (hb : b.toNat = rb.val) :
    exec (.mul a b) s =
      .next ((s.setReg ra (keepByte ((s.reg ra).toNat * (s.reg rb).toNat))).advance 2) := by
  simp [exec, execMul, aluHandler, aluApply, checkReg_ok ha, checkReg_ok hb]

theorem exec_cmp_ok {a b : Byte} {ra rb : Reg} (ha : a.toNat = ra.val) (hb : b.toNat = rb.val) :
    exec (.cmp a b) s = .next ((s.setFl (compareFlags (s.reg ra) (s.reg rb))).advance 2) := by
  simp [exec, execCmp, aluHandler, aluApply, checkReg_ok ha, checkReg_ok hb]

theorem exec_push_ok {r : Byte} {a : Reg} (h : r.toNat = a.val) (h0 : s.sp ≠ 0) :
    exec (.push r) s =
      .next (((s.setSp (s.sp - 1)).setMem (s.mem.update (pushAddress s) (s.reg a))).advance 1) := by
  simp only [exec, execPush, checkReg_ok h, push_ok h0, except_bind_ok, commit_ok]

theorem exec_pop_ok {r : Byte} {a : Reg} (h : r.toNat = a.val) (h0 : s.sp.toNat < 0xF4) :
    exec (.pop r) s =
      .next (((s.setSp (s.sp + 1)).setReg a (s.mem.byteAt s.sp.toNat)).advance 1) := by
  simp only [exec, execPop, checkReg_ok h, pop_ok h0, except_bind_ok, commit_ok]

theorem exec_call_ok {r : Byte} {a : Reg} (h : r.toNat = a.val) (hp : s.pc.toNat + 2 < 256) (h0 : s.sp ≠ 0) :
    exec (.call r) s =
      .next (((s.setSp (s.sp - 1)).setMem
        (s.mem.update (pushAddress s) (BitVec.ofNat 8 (s.pc.toNat + 2)))).jump (s.reg a)) := by
  simp only [exec, execCall, checkReg_ok h, returnAddress_ok hp, push_ok h0, except_bind_ok, commit_ok]

theorem exec_ret_ok (h : s.sp.toNat < 0xF4) :
    exec .ret s = .next ((s.setSp (s.sp + 1)).jump (s.mem.byteAt s.sp.toNat)) := by
  simp only [exec, execRet, pop_ok h, except_bind_ok, commit_ok]

theorem exec_jmp_ok {r : Byte} {a : Reg} (h : r.toNat = a.val) : exec (.jmp r) s = .next (s.jump (s.reg a)) := by
  simp [exec, execJmp, branchHandler, checkReg_ok h]

theorem exec_jeq_ok {r : Byte} {a : Reg} (h : r.toNat = a.val) :
    exec (.jeq r) s = .next (if s.equalSet then s.jump (s.reg a) else s.advance 1) := by
  simp [exec, execJeq, branchHandler, checkReg_ok h]

theorem exec_jne_ok {r : Byte} {a : Reg} (h : r.toNat = a.val) :
    exec (.jne r) s = .next (if s.equalSet then s.advance 1 else s.jump (s.reg a)) := by
  cases he : s.equalSet <;> simp [exec, execJne, branchHandler, checkReg_ok h, he]

/-! ### Every way an instruction can end -/

theorem exec_halt_cases (h : exec .halt s = .next t) : t = s.halt.advance 0 := by
  simpa [exec, execHalt, eq_comm] using h

theorem exec_loadImmediate_cases {r imm : Byte} (h : exec (.loadImmediate r imm) s = .next t) :
    (∃ a : Reg, r.toNat = a.val ∧ t = (s.setReg a imm).advance 2) ∨
      (8 ≤ r.toNat ∧ t = s.raise ⟨.invalidRegister, r.toNat⟩) := by
  rcases checkReg_cases r with ⟨a, ha, e⟩ | ⟨ha, e⟩ <;> simp [exec, execLoadImmediate, immediate, e] at h
  · exact .inl ⟨a, ha, h.symm⟩
  · exact .inr ⟨ha, h.symm⟩

theorem exec_print_cases {r : Byte} (h : exec (.print r) s = .next t) :
    (∃ a : Reg, r.toNat = a.val ∧ t = (s.emit (s.reg a)).advance 1) ∨
      (8 ≤ r.toNat ∧ t = s.raise ⟨.invalidRegister, r.toNat⟩) := by
  rcases checkReg_cases r with ⟨a, ha, e⟩ | ⟨ha, e⟩ <;> simp [exec, execPrint, e] at h
  · exact .inl ⟨a, ha, h.symm⟩
  · exact .inr ⟨ha, h.symm⟩

/-- The fault of an instruction with two register operands: op1 is reported before op2 (R142). -/
def BadOperands (a b : Byte) (s t : State) : Prop :=
  (8 ≤ a.toNat ∧ t = s.raise ⟨.invalidRegister, a.toNat⟩) ∨
    (a.toNat < 8 ∧ 8 ≤ b.toNat ∧ t = s.raise ⟨.invalidRegister, b.toNat⟩)

theorem exec_add_cases {a b : Byte} (h : exec (.add a b) s = .next t) :
    (∃ ra rb : Reg, a.toNat = ra.val ∧ b.toNat = rb.val ∧
        t = (s.setReg ra (keepByte ((s.reg ra).toNat + (s.reg rb).toNat))).advance 2) ∨ BadOperands a b s t := by
  rcases aluHandler_cases .add a b s with ⟨ra, rb, ha, hb, e⟩ | ⟨ha, e⟩ | ⟨ha, hb, e⟩ <;>
    simp [exec, execAdd, aluApply, e] at h
  · exact .inl ⟨ra, rb, ha, hb, h.symm⟩
  · exact .inr (.inl ⟨ha, h.symm⟩)
  · exact .inr (.inr ⟨ha, hb, h.symm⟩)

theorem exec_mul_cases {a b : Byte} (h : exec (.mul a b) s = .next t) :
    (∃ ra rb : Reg, a.toNat = ra.val ∧ b.toNat = rb.val ∧
        t = (s.setReg ra (keepByte ((s.reg ra).toNat * (s.reg rb).toNat))).advance 2) ∨ BadOperands a b s t := by
  rcases aluHandler_cases .mul a b s with ⟨ra, rb, ha, hb, e⟩ | ⟨ha, e⟩ | ⟨ha, hb, e⟩ <;>
    simp [exec, execMul, aluApply, e] at h
  · exact .inl ⟨ra, rb, ha, hb, h.symm⟩
  · exact .inr (.inl ⟨ha, h.symm⟩)
  · exact .inr (.inr ⟨ha, hb, h.symm⟩)

theorem exec_cmp_cases {a b : Byte} (h : exec (.cmp a b) s = .next t) :
    (∃ ra rb : Reg, a.toNat = ra.val ∧ b.toNat = rb.val ∧
        t = (s.setFl (compareFlags (s.reg ra) (s.reg rb))).advance 2) ∨ BadOperands a b s t := by
  rcases aluHandler_cases .cmp a b s with ⟨ra, rb, ha, hb, e⟩ | ⟨ha, e⟩ | ⟨ha, hb, e⟩ <;>
    simp [exec, execCmp, aluApply, e] at h
  · exact .inl ⟨ra, rb, ha, hb, h.symm⟩
  · exact .inr (.inl ⟨ha, h.symm⟩)
  · exact .inr (.inr ⟨ha, hb, h.symm⟩)

theorem exec_push_cases {r : Byte} (h : exec (.push r) s = .next t) :
    (∃ a : Reg, r.toNat = a.val ∧ s.sp ≠ 0 ∧
        t = ((s.setSp (s.sp - 1)).setMem (s.mem.update (pushAddress s) (s.reg a))).advance 1) ∨
      (8 ≤ r.toNat ∧ t = s.raise ⟨.invalidRegister, r.toNat⟩) ∨
      (r.toNat < 8 ∧ s.sp = 0 ∧ t = s.raise ⟨.stackOverflow, 0⟩) := by
  rcases checkReg_cases r with ⟨a, ha, e⟩ | ⟨ha, e⟩
  · rcases push_cases s (s.reg a) with ⟨h0, ep⟩ | ⟨h0, ep⟩ <;> simp only [exec, execPush, e, ep, except_bind_ok,
      except_bind_error, commit_ok, commit_error, Host.Outcome.next.injEq] at h
    · exact .inr (.inr ⟨by omega, h0, h.symm⟩)
    · exact .inl ⟨a, ha, h0, h.symm⟩
  · simp [exec, execPush, e] at h
    exact .inr (.inl ⟨ha, h.symm⟩)

theorem exec_pop_cases {r : Byte} (h : exec (.pop r) s = .next t) :
    (∃ a : Reg, r.toNat = a.val ∧ s.sp.toNat < 0xF4 ∧
        t = ((s.setSp (s.sp + 1)).setReg a (s.mem.byteAt s.sp.toNat)).advance 1) ∨
      (8 ≤ r.toNat ∧ t = s.raise ⟨.invalidRegister, r.toNat⟩) ∨
      (r.toNat < 8 ∧ 0xF4 ≤ s.sp.toNat ∧ t = s.raise ⟨.stackUnderflow, s.sp.toNat⟩) := by
  rcases checkReg_cases r with ⟨a, ha, e⟩ | ⟨ha, e⟩
  · rcases pop_cases s with ⟨h0, ep⟩ | ⟨h0, ep⟩ <;> simp only [exec, execPop, e, ep, except_bind_ok,
      except_bind_error, commit_ok, commit_error, Host.Outcome.next.injEq] at h
    · exact .inr (.inr ⟨by omega, h0, h.symm⟩)
    · exact .inl ⟨a, ha, h0, h.symm⟩
  · simp [exec, execPop, e] at h
    exact .inr (.inl ⟨ha, h.symm⟩)

theorem exec_call_cases {r : Byte} (h : exec (.call r) s = .next t) :
    (∃ a : Reg, r.toNat = a.val ∧ s.pc.toNat + 2 < 256 ∧ s.sp ≠ 0 ∧
        t = ((s.setSp (s.sp - 1)).setMem
          (s.mem.update (pushAddress s) (BitVec.ofNat 8 (s.pc.toNat + 2)))).jump (s.reg a)) ∨
      (8 ≤ r.toNat ∧ t = s.raise ⟨.invalidRegister, r.toNat⟩) ∨
      (r.toNat < 8 ∧ 256 ≤ s.pc.toNat + 2 ∧ t = s.raise ⟨.outOfBounds, s.pc.toNat + 2⟩) ∨
      (r.toNat < 8 ∧ s.pc.toNat + 2 < 256 ∧ s.sp = 0 ∧ t = s.raise ⟨.stackOverflow, 0⟩) := by
  rcases checkReg_cases r with ⟨a, ha, e⟩ | ⟨ha, e⟩
  · rcases returnAddress_cases s with ⟨hr, er⟩ | ⟨hr, er⟩
    · rcases push_cases s (BitVec.ofNat 8 (s.pc.toNat + 2)) with ⟨h0, ep⟩ | ⟨h0, ep⟩ <;>
        simp only [exec, execCall, e, er, ep, except_bind_ok, except_bind_error, commit_ok, commit_error,
          Host.Outcome.next.injEq] at h
      · exact .inr (.inr (.inr ⟨by omega, hr, h0, h.symm⟩))
      · exact .inl ⟨a, ha, hr, h0, h.symm⟩
    · simp [exec, execCall, e, er] at h
      exact .inr (.inr (.inl ⟨by omega, hr, h.symm⟩))
  · simp [exec, execCall, e] at h
    exact .inr (.inl ⟨ha, h.symm⟩)

theorem exec_ret_cases (h : exec .ret s = .next t) :
    (s.sp.toNat < 0xF4 ∧ t = (s.setSp (s.sp + 1)).jump (s.mem.byteAt s.sp.toNat)) ∨
      (0xF4 ≤ s.sp.toNat ∧ t = s.raise ⟨.stackUnderflow, s.sp.toNat⟩) := by
  rcases pop_cases s with ⟨h0, ep⟩ | ⟨h0, ep⟩ <;> simp only [exec, execRet, ep, except_bind_ok,
    except_bind_error, commit_ok, commit_error, Host.Outcome.next.injEq] at h
  · exact .inr ⟨h0, h.symm⟩
  · exact .inl ⟨h0, h.symm⟩

/-- What a branch with condition `taken` does (R120-R122). -/
def BranchTo (taken : Bool) (r : Byte) (s t : State) : Prop :=
  (∃ a : Reg, r.toNat = a.val ∧ t = if taken then s.jump (s.reg a) else s.advance 1) ∨
    (8 ≤ r.toNat ∧ t = s.raise ⟨.invalidRegister, r.toNat⟩)

theorem branch_cases {taken : Bool} {r : Byte} (h : commit s (branchHandler taken r s) = .next t) :
    BranchTo taken r s t := by
  rcases branchHandler_cases taken r s with ⟨a, ha, e⟩ | ⟨ha, e⟩ <;>
    simp only [e, commit_ok, commit_error, Host.Outcome.next.injEq] at h
  · exact .inl ⟨a, ha, h.symm⟩
  · exact .inr ⟨ha, h.symm⟩

theorem exec_jmp_cases {r : Byte} (h : exec (.jmp r) s = .next t) : BranchTo true r s t := branch_cases h
theorem exec_jeq_cases {r : Byte} (h : exec (.jeq r) s = .next t) : BranchTo s.equalSet r s t := branch_cases h
theorem exec_jne_cases {r : Byte} (h : exec (.jne r) s = .next t) : BranchTo (!s.equalSet) r s t := branch_cases h

/-! ### All instructions at once -/

/-- Every fault an instruction can take, with its cause, info and the condition it is taken under (R131-R136). -/
def InstrTrap (i : Instr) (s : State) (e : Trap) : Prop :=
  (e.cause = .invalidRegister ∧ 8 ≤ e.info ∧ e.info ≤ 255) ∨
  (e = ⟨.outOfBounds, s.pc.toNat + 2⟩ ∧ 256 ≤ s.pc.toNat + 2 ∧ ∃ r : Byte, r.toNat < 8 ∧ i = .call r) ∨
  (e = ⟨.stackOverflow, 0⟩ ∧ s.sp = 0 ∧
    ∃ r : Byte, r.toNat < 8 ∧ (i = .push r ∨ (i = .call r ∧ s.pc.toNat + 2 < 256))) ∨
  (e = ⟨.stackUnderflow, s.sp.toNat⟩ ∧ 0xF4 ≤ s.sp.toNat ∧ (i = .ret ∨ ∃ r : Byte, r.toNat < 8 ∧ i = .pop r))

theorem instrTrap_invalidRegister {i : Instr} {b : Byte} (h : 8 ≤ b.toNat) :
    InstrTrap i s ⟨.invalidRegister, b.toNat⟩ :=
  .inl ⟨rfl, h, by have := b.isLt; show b.toNat ≤ 255; omega⟩

/-- What an instruction that completes leaves: RUN as it was but for HALT; memory as it was but for the byte a PUSH or CALL
stores; FL as it was but for CMP; OUT as it was but for PRINT. -/
structure Completes (i : Instr) (s t : State) : Prop where
  run : (i ≠ .halt ∧ t.run = s.run) ∨ (i = .halt ∧ t.run = .halted)
  mem : t.mem = s.mem ∨ ∃ r v, (i = .push r ∨ i = .call r) ∧ t.mem = s.mem.update (pushAddress s) v
  fl : t.fl = s.fl ∨ ∃ a b d c, i = .cmp a b ∧ t.fl = compareFlags d c
  out : t.out = s.out ∨ ∃ (r : Byte) (a : Reg), r.toNat = a.val ∧ i = .print r ∧ t.out = s.out ++ [s.reg a]

theorem badOperands_trap {i : Instr} {a b : Byte} (h : BadOperands a b s t) : ∃ e, InstrTrap i s e ∧ t = s.raise e := by
  rcases h with ⟨h, rfl⟩ | ⟨-, h, rfl⟩
  · exact ⟨_, instrTrap_invalidRegister h, rfl⟩
  · exact ⟨_, instrTrap_invalidRegister h, rfl⟩

theorem branchTo_completes {i : Instr} {taken : Bool} {r : Byte} (hi : i ≠ .halt) (h : BranchTo taken r s t) :
    Completes i s t ∨ ∃ e, InstrTrap i s e ∧ t = s.raise e := by
  rcases h with ⟨a, -, rfl⟩ | ⟨h, rfl⟩
  · cases taken
    · exact .inl ⟨.inl ⟨hi, rfl⟩, .inl rfl, .inl rfl, .inl rfl⟩
    · exact .inl ⟨.inl ⟨hi, rfl⟩, .inl rfl, .inl rfl, .inl rfl⟩
  · exact .inr ⟨_, instrTrap_invalidRegister h, rfl⟩

/-- An instruction completes or takes one of its faults where it began. -/
theorem exec_outcome {i : Instr} (h : exec i s = .next t) :
    Completes i s t ∨ ∃ e, InstrTrap i s e ∧ t = s.raise e := by
  cases i with
  | halt =>
    obtain rfl := exec_halt_cases h
    exact .inl ⟨.inr ⟨rfl, rfl⟩, .inl rfl, .inl rfl, .inl rfl⟩
  | loadImmediate r imm =>
    rcases exec_loadImmediate_cases h with ⟨a, -, rfl⟩ | ⟨hr, rfl⟩
    · exact .inl ⟨.inl ⟨nofun, rfl⟩, .inl rfl, .inl rfl, .inl rfl⟩
    · exact .inr ⟨_, instrTrap_invalidRegister hr, rfl⟩
  | print r =>
    rcases exec_print_cases h with ⟨a, ha, rfl⟩ | ⟨hr, rfl⟩
    · exact .inl ⟨.inl ⟨nofun, rfl⟩, .inl rfl, .inl rfl, .inr ⟨r, a, ha, rfl, rfl⟩⟩
    · exact .inr ⟨_, instrTrap_invalidRegister hr, rfl⟩
  | add a b =>
    rcases exec_add_cases h with ⟨ra, rb, -, -, rfl⟩ | hb
    · exact .inl ⟨.inl ⟨nofun, rfl⟩, .inl rfl, .inl rfl, .inl rfl⟩
    · exact .inr (badOperands_trap hb)
  | mul a b =>
    rcases exec_mul_cases h with ⟨ra, rb, -, -, rfl⟩ | hb
    · exact .inl ⟨.inl ⟨nofun, rfl⟩, .inl rfl, .inl rfl, .inl rfl⟩
    · exact .inr (badOperands_trap hb)
  | cmp a b =>
    rcases exec_cmp_cases h with ⟨ra, rb, -, -, rfl⟩ | hb
    · exact .inl ⟨.inl ⟨nofun, rfl⟩, .inl rfl, .inr ⟨a, b, _, _, rfl, rfl⟩, .inl rfl⟩
    · exact .inr (badOperands_trap hb)
  | push r =>
    rcases exec_push_cases h with ⟨a, -, -, rfl⟩ | ⟨hr, rfl⟩ | ⟨hr, h0, rfl⟩
    · exact .inl ⟨.inl ⟨nofun, rfl⟩, .inr ⟨r, _, .inl rfl, rfl⟩, .inl rfl, .inl rfl⟩
    · exact .inr ⟨_, instrTrap_invalidRegister hr, rfl⟩
    · exact .inr ⟨_, .inr (.inr (.inl ⟨rfl, h0, r, hr, .inl rfl⟩)), rfl⟩
  | pop r =>
    rcases exec_pop_cases h with ⟨a, -, -, rfl⟩ | ⟨hr, rfl⟩ | ⟨hr, h0, rfl⟩
    · exact .inl ⟨.inl ⟨nofun, rfl⟩, .inl rfl, .inl rfl, .inl rfl⟩
    · exact .inr ⟨_, instrTrap_invalidRegister hr, rfl⟩
    · exact .inr ⟨_, .inr (.inr (.inr ⟨rfl, h0, .inr ⟨r, hr, rfl⟩⟩)), rfl⟩
  | call r =>
    rcases exec_call_cases h with ⟨a, -, -, -, rfl⟩ | ⟨hr, rfl⟩ | ⟨hr, hp, rfl⟩ | ⟨hr, hp, h0, rfl⟩
    · exact .inl ⟨.inl ⟨nofun, rfl⟩, .inr ⟨r, _, .inr rfl, rfl⟩, .inl rfl, .inl rfl⟩
    · exact .inr ⟨_, instrTrap_invalidRegister hr, rfl⟩
    · exact .inr ⟨_, .inr (.inl ⟨rfl, hp, r, hr, rfl⟩), rfl⟩
    · exact .inr ⟨_, .inr (.inr (.inl ⟨rfl, h0, r, hr, .inr ⟨rfl, hp⟩⟩)), rfl⟩
  | ret =>
    rcases exec_ret_cases h with ⟨-, rfl⟩ | ⟨h0, rfl⟩
    · exact .inl ⟨.inl ⟨nofun, rfl⟩, .inl rfl, .inl rfl, .inl rfl⟩
    · exact .inr ⟨_, .inr (.inr (.inr ⟨rfl, h0, .inl rfl⟩)), rfl⟩
  | jmp r => exact branchTo_completes nofun (exec_jmp_cases h)
  | jeq r => exact branchTo_completes nofun (exec_jeq_cases h)
  | jne r => exact branchTo_completes nofun (exec_jne_cases h)

end Sys2Proof.Machine
end

