-- ==== Sys2Proof/Laws/PerInstr.lean ====
section
/-! SUPPORT. Statements made per instruction. Family `EncodingLength`: the encoding of an instruction is its opcode byte
and as many operand bytes as the table of R62 gives its opcode (spec/30_encoding.md R60, R62). -/

namespace Sys2Proof.Laws.EncodingLength

/-- The encoding has `length` bytes: 1 + n (R60). -/
def Statement (i : Instr) : Prop :=
  (encode i).length = i.length

theorem halt : Statement .halt := rfl
theorem loadImmediate (r imm : Byte) : Statement (.loadImmediate r imm) := rfl
theorem print (r : Byte) : Statement (.print r) := rfl
theorem add (a b : Byte) : Statement (.add a b) := rfl
theorem mul (a b : Byte) : Statement (.mul a b) := rfl
theorem cmp (a b : Byte) : Statement (.cmp a b) := rfl
theorem push (r : Byte) : Statement (.push r) := rfl
theorem pop (r : Byte) : Statement (.pop r) := rfl
theorem call (r : Byte) : Statement (.call r) := rfl
theorem ret : Statement .ret := rfl
theorem jmp (r : Byte) : Statement (.jmp r) := rfl
theorem jeq (r : Byte) : Statement (.jeq r) := rfl
theorem jne (r : Byte) : Statement (.jne r) := rfl

end Sys2Proof.Laws.EncodingLength
end

