-- ==== Sys2Proof/Laws/Step.lean ====
section
/-! SUPPORT. What the fetch and a step can do, and the run loop one step at a time. -/

namespace Sys2Proof.Machine

variable {s t : State}

/-- All that a fetch can do: raise OutOfBounds or IllegalInstruction, or give the instruction with its operand bytes (R75,
R131, R134). -/
theorem fetch_cases (s : State) :
    (256 ≤ s.pc.toNat ∧ fetch s = .error ⟨.outOfBounds, s.pc.toNat⟩) ∨
    (s.pc.toNat < 256 ∧ decodeOpcode (s.mem.byteAt s.pc.toNat) = none ∧
      fetch s = .error ⟨.illegalInstruction, (s.mem.byteAt s.pc.toNat).toNat⟩) ∨
    (∃ o, s.pc.toNat < 256 ∧ decodeOpcode (s.mem.byteAt s.pc.toNat) = some o ∧
      ((256 ≤ s.pc.toNat + o.arity ∧ fetch s = .error ⟨.outOfBounds, 256⟩) ∨
       (s.pc.toNat + o.arity < 256 ∧ ∃ op1 op2, fetch s = .ok (o.instr op1 op2) ∧
         (1 ≤ o.arity → op1 = s.mem.byteAt (s.pc.toNat + 1)) ∧
         (2 ≤ o.arity → op2 = s.mem.byteAt (s.pc.toNat + 2))))) := by
  rcases memRead_cases s s.pc.toNat with ⟨h0, e0⟩ | ⟨h0, e0⟩
  · refine .inr ?_
    cases ho : decodeOpcode (s.mem.byteAt s.pc.toNat) with
    | none => exact .inl ⟨h0, rfl, by simp [fetch, e0, ho]⟩
    | some o =>
      refine .inr ⟨o, h0, rfl, ?_⟩
      have hle := arity_le_two o
      rcases memRead_cases s (s.pc.toNat + 1) with ⟨h1, e1⟩ | ⟨h1, e1⟩
      · rcases memRead_cases s (s.pc.toNat + 2) with ⟨h2, e2⟩ | ⟨h2, e2⟩
        · refine .inr ⟨by omega, ?_⟩
          have ha : o.arity = 0 ∨ o.arity = 1 ∨ o.arity = 2 := by omega
          rcases ha with ha | ha | ha <;> simp [fetch, e0, ho, e1, e2, ha]
        · by_cases a2 : 2 ≤ o.arity
          · have hpc : s.pc.toNat + 2 = 256 := by omega
            exact .inl ⟨by omega, by simp [fetch, e0, ho, e1, a2, show 1 ≤ o.arity by omega, hpc]⟩
          · refine .inr ⟨by omega, ?_⟩
            by_cases a1 : 1 ≤ o.arity <;> simp [fetch, e0, ho, e1, a1, a2]
      · by_cases a1 : 1 ≤ o.arity
        · have hpc : s.pc.toNat + 1 = 256 := by omega
          exact .inl ⟨by omega, by simp [fetch, e0, ho, a1, hpc]⟩
        · refine .inr ⟨by omega, ?_⟩
          simp [fetch, e0, ho, a1, show ¬ 2 ≤ o.arity by omega]
  · exact .inl ⟨h0, by simp [fetch, e0]⟩

/-- A step that runs an instruction has all of its bytes inside memory. -/
theorem fetch_ok_bound {i : Instr} (h : fetch s = .ok i) : s.pc.toNat + i.length ≤ 256 := by
  rcases fetch_cases s with ⟨-, e⟩ | ⟨-, -, e⟩ | ⟨o, -, -, ⟨-, e⟩ | ⟨hb, op1, op2, e, -⟩⟩
  · simp [e] at h
  · simp [e] at h
  · simp [e] at h
  · obtain rfl : o.instr op1 op2 = i := by simpa [e] using h
    simp only [Instr.length, opcode_instr]
    omega

/-- A step is taken only while Running, and it is the fetched instruction or a fault of the fetch (R75). -/
theorem step_cases (h : step s = .next t) :
    s.run = .running ∧ ((∃ i, fetch s = .ok i ∧ exec i s = .next t) ∨ ∃ e, fetch s = .error e ∧ t = s.raise e) := by
  unfold step at h
  split at h
  · refine ⟨‹_›, ?_⟩
    split at h
    · exact .inl ⟨_, ‹_›, h⟩
    · exact .inr ⟨_, ‹_›, by simpa [eq_comm] using h⟩
  · cases h
  · cases h

theorem step_of_fetch_ok {i : Instr} (hr : s.run = .running) (hf : fetch s = .ok i) : step s = exec i s := by
  simp [step, hr, hf]

theorem step_of_fetch_error {e : Trap} (hr : s.run = .running) (hf : fetch s = .error e) :
    step s = .next (s.raise e) := by
  simp [step, hr, hf]

/-- Every fault of a fetch, with its info and the condition it is taken under (R131, R134). -/
theorem fetch_error_cases {e : Trap} (h : fetch s = .error e) :
    (e = ⟨.illegalInstruction, (s.mem.byteAt s.pc.toNat).toNat⟩ ∧ s.pc.toNat < 256 ∧
      decodeOpcode (s.mem.byteAt s.pc.toNat) = none) ∨
    (e = ⟨.outOfBounds, s.pc.toNat⟩ ∧ 256 ≤ s.pc.toNat) ∨
    (e = ⟨.outOfBounds, 256⟩ ∧ s.pc.toNat < 256 ∧
      ∃ o, decodeOpcode (s.mem.byteAt s.pc.toNat) = some o ∧ 256 ≤ s.pc.toNat + o.arity) := by
  rcases fetch_cases s with ⟨h0, e'⟩ | ⟨h0, hd, e'⟩ | ⟨o, h0, hd, ⟨hb, e'⟩ | ⟨hb, _, _, e', -⟩⟩ <;>
    rw [e'] at h <;> cases h
  · exact .inr (.inl ⟨rfl, h0⟩)
  · exact .inl ⟨rfl, h0, hd⟩
  · exact .inr (.inr ⟨rfl, h0, o, hd, hb⟩)

/-- All that a step can do: the instruction completes, it takes one of its faults, or the fetch does. -/
theorem step_outcome (h : step s = .next t) :
    s.run = .running ∧
      ((∃ i, fetch s = .ok i ∧ exec i s = .next t ∧ Completes i s t) ∨
       (∃ i e, fetch s = .ok i ∧ InstrTrap i s e ∧ t = s.raise e) ∨
       ∃ e, fetch s = .error e ∧ t = s.raise e) := by
  obtain ⟨hr, ⟨i, hi, hx⟩ | hf⟩ := step_cases h
  · rcases exec_outcome hx with hc | ⟨e, he, rfl⟩
    · exact ⟨hr, .inl ⟨i, hi, hx, hc⟩⟩
    · exact ⟨hr, .inr (.inl ⟨i, e, hi, he, rfl⟩)⟩
  · exact ⟨hr, .inr (.inr hf)⟩

/-- An instruction that completes in a running core does not fault. -/
theorem completes_not_faulted {i : Instr} (hr : s.run = .running) (h : Completes i s t) : t.run.isFaulted = false := by
  rcases h.run with ⟨-, h⟩ | ⟨-, h⟩ <;> simp [h, hr, RunState.isFaulted]

@[simp] theorem runSteps_zero (s : State) : runSteps 0 s = s := rfl

theorem runSteps_next {k : Nat} (h : step s = .next t) : runSteps (k + 1) s = runSteps k t := by
  simp [runSteps, h]

/-! ### Frames -/

theorem memKept_of_eq {l : List Nat} (h : t.mem = s.mem) : MemKept l s t := fun a _ => memRead_congr h a

/-- A write at `a` keeps every other byte. -/
theorem memKept_of_update {a : Nat} {v : Byte} (h : t.mem = s.mem.update a v) : MemKept [a] s t := by
  intro b hb
  have hne : b ≠ a := by simpa using hb
  simp only [State.memRead, h, byteAt_update_ne hne]

/-- The byte at pc leads the bytes that are decoded. -/
theorem codeAt_cons (h : s.pc.toNat < 256) :
    codeAt s = s.mem.byteAt s.pc.toNat ::
      (List.range' (s.pc.toNat + 1) (255 - s.pc.toNat)).map s.mem.byteAt := by
  simp only [codeAt, memSize_eq]
  rw [show 256 - s.pc.toNat = (255 - s.pc.toNat) + 1 by omega, List.range'_succ, List.map_cons]

end Sys2Proof.Machine
end

