-- ==== Sys2Proof/Tests/Slice0.lean ====
section
/-! SUPPORT. Tests: the smoke test of WellFormed, one word per instruction written out from the encodings of
spec/30_encoding.md R64, single steps with expected results from spec/95_test_vectors.md (the vector's id is in the name),
and, for every statement with hypotheses, a witness that meets them. -/

namespace Sys2Proof.Machine.Test

/-! ### WellFormed: each check refuses an ill-formed term (R24, R66) -/

theorem test_wf_valid : Instr.halt.wellFormed = true ∧ (Instr.loadImmediate 7 255).wellFormed = true ∧
    (Instr.add 0 7).wellFormed = true ∧ Instr.ret.wellFormed = true := by decide
theorem test_wf_loadImmediate : (Instr.loadImmediate 8 0).wellFormed = false := by decide
theorem test_wf_print : (Instr.print 8).wellFormed = false := by decide
theorem test_wf_add : (Instr.add 8 0).wellFormed = false ∧ (Instr.add 0 8).wellFormed = false := by decide
theorem test_wf_mul : (Instr.mul 8 0).wellFormed = false ∧ (Instr.mul 0 8).wellFormed = false := by decide
theorem test_wf_cmp : (Instr.cmp 8 0).wellFormed = false ∧ (Instr.cmp 0 8).wellFormed = false := by decide
theorem test_wf_push : (Instr.push 8).wellFormed = false := by decide
theorem test_wf_pop : (Instr.pop 8).wellFormed = false := by decide
theorem test_wf_call : (Instr.call 8).wellFormed = false := by decide
theorem test_wf_jmp : (Instr.jmp 8).wellFormed = false := by decide
theorem test_wf_jeq : (Instr.jeq 8).wellFormed = false := by decide
theorem test_wf_jne : (Instr.jne 255).wellFormed = false := by decide

/-! ### Decoding: a word of every instruction, written out from R64 -/

/-- The decoder's instruction and the bytes left over, if it accepts. -/
def decoded (bytes : List Byte) : Option (Instr × List Byte) := (decode bytes).toOption

theorem test_decode_halt : decoded [0b00000001] = some (.halt, []) := by decide
theorem test_decode_loadImmediate :
    decoded [0b10000010, 0b00000011, 0b11111110] = some (.loadImmediate 3 254, []) := by decide
theorem test_decode_print : decoded [0b01000111, 0b00000101] = some (.print 5, []) := by decide
theorem test_decode_add : decoded [0b10100000, 0b00000001, 0b00000010] = some (.add 1 2, []) := by decide
theorem test_decode_mul : decoded [0b10100010, 0b00000001, 0b00000010] = some (.mul 1 2, []) := by decide
theorem test_decode_cmp : decoded [0b10100111, 0b00000001, 0b00000010] = some (.cmp 1 2, []) := by decide
theorem test_decode_push : decoded [0b01000101, 0b00000110, 9] = some (.push 6, [9]) := by decide
theorem test_decode_pop : decoded [0b01000110, 0b00000110] = some (.pop 6, []) := by decide
theorem test_decode_call : decoded [0b01010000, 0b00000110] = some (.call 6, []) := by decide
theorem test_decode_ret : decoded [0b00010001] = some (.ret, []) := by decide
theorem test_decode_jmp : decoded [0b01010100, 0b00000110] = some (.jmp 6, []) := by decide
theorem test_decode_jeq : decoded [0b01010101, 0b00000110] = some (.jeq 6, []) := by decide
theorem test_decode_jne : decoded [0b01010110, 0b00000110] = some (.jne 6, []) := by decide
theorem test_decode_errors : decode [] = .error .noOpcode ∧ decode [0xC0, 0, 0] = .error (.illegalOpcode 0xC0) ∧
    decode [0xA0, 1] = .error (.missingOperand .add) := ⟨rfl, rfl, rfl⟩
theorem test_decodeTableWord : decodeTableWord 24 0x0201A0 = some (.add 1 2) ∧
    decodeTableWord 8 0x0201A0 = some (.add 0 0) ∧ decodeTableWord 8 0 = none := by decide

/-! ### Single steps (spec/95_test_vectors.md, section 2) -/

/-- A running core with bytes placed at `pc` and the rest at the reset values. -/
def atPc (pc : Pc) (bytes : List Byte) : State :=
  { State.reset with mem := State.reset.mem.storeBytes pc.toNat bytes, pc := pc }

/-- The state after one step, if there is one. -/
def after (s : State) : Option State := nextState (step s)

/-- The same core with a register set. -/
def withR (s : State) (r : Reg) (v : Byte) : State := s.setReg r v

/-- A running core with the bytes of `LOAD_IMMEDIATE r0, 8` at 0. -/
def s0 : State := atPc 0 [0x82, 0x00, 0x08]

theorem test_reset_registers : State.reset.reg 0 = 0 ∧ State.reset.reg 6 = 0 ∧ State.reset.sp = 0xF4 := by decide
theorem test_V14_reset_runs_zero_byte :
    (after State.reset).map (·.run) = some (.faulted .illegalInstruction 0 0) := by decide
theorem test_withFetchWord_runs_first :
    (after (State.reset.withFetchWord 24 0x080082)).map (fun t => (t.reg 0, t.pc)) = some (8, 3) := by decide

theorem test_V1_halt : (after (atPc 0 [0x01])).map (fun t => (t.run, t.pc)) = some (.halted, 1) := by decide
theorem test_V2_halt_at_255 : (after (atPc 255 [0x01])).map (fun t => (t.run, t.pc)) = some (.halted, 256) := by decide
theorem test_V3_fetch_at_256 :
    (after (atPc 256 [])).map (fun t => (t.run, t.pc)) = some (.faulted .outOfBounds 256 256, 256) := by decide
theorem test_V5_loadImmediate_moves_sp :
    (after (atPc 0 [0x82, 0x07, 0x10])).map (fun t => (t.sp, t.pc, t.mem.byteAt 7)) = some (0x10, 3, 0) := by decide
theorem test_V8_loadImmediate_at_254 :
    (after (atPc 254 [0x82, 0x00])).map (·.run) = some (.faulted .outOfBounds 254 256) := by decide
theorem test_V10_print : (after (withR (atPc 0 [0x47, 0x00]) 0 72)).map (fun t => (t.out, t.pc)) = some ([72], 2) := by
  decide
theorem test_V12_print_r255 :
    (after (atPc 0 [0x47, 0xFF])).map (fun t => (t.run, t.out)) = some (.faulted .invalidRegister 0 255, []) := by decide
theorem test_V15_illegal_at_255 :
    (after (atPc 255 [0xFF])).map (·.run) = some (.faulted .illegalInstruction 255 255) := by decide
theorem test_V17_add : (after (withR (withR (atPc 0 [0xA0, 0x00, 0x01]) 0 250) 1 10)).map
    (fun t => (t.reg 0, t.reg 1, t.pc)) = some (4, 10, 3) := by decide
theorem test_V23_add_reports_op1_first :
    (after (atPc 0 [0xA0, 0x08, 0x09])).map (·.run) = some (.faulted .invalidRegister 0 8) := by decide
theorem test_V27_mul : (after (withR (withR (atPc 0 [0xA2, 0x00, 0x01]) 0 255) 1 255)).map (·.reg 0) = some 1 := by decide
theorem test_V30_mul_same_register :
    (after (withR (atPc 0 [0xA2, 0x00, 0x00]) 0 15)).map (·.reg 0) = some 225 := by decide
theorem test_V31_cmp_less :
    (after (withR (withR (atPc 0 [0xA7, 0x00, 0x01]) 0 3) 1 5)).map (·.fl) = some 0x04 := by decide
theorem test_V34_cmp_unsigned :
    (after (withR (withR (atPc 0 [0xA7, 0x00, 0x01]) 0 0x80) 1 0x7F)).map (·.fl) = some 0x02 := by decide
theorem test_V40_push_r7 :
    (after (atPc 0 [0x45, 0x07])).map (fun t => (t.sp, t.mem.byteAt 0xF3, t.pc)) = some (0xF3, 0xF4, 2) := by decide
theorem test_V42_push_overflow :
    (after (withR (atPc 0 [0x45, 0x00]) 7 0)).map (·.run) = some (.faulted .stackOverflow 0 0) := by decide
theorem test_V47_pop_r7 : (after (withR ((atPc 0 [0x46, 0x07]).setMem
    (((atPc 0 [0x46, 0x07]).mem).update 0xF0 0x20)) 7 0xF0)).map (fun t => (t.sp, t.pc)) = some (0x20, 2) := by decide
theorem test_V48_pop_register_first :
    (after (atPc 0 [0x46, 0x08])).map (·.run) = some (.faulted .invalidRegister 0 8) := by decide
theorem test_V49_call : (after (withR (atPc 16 [0x50, 0x01]) 1 0x40)).map
    (fun t => (t.sp, t.mem.byteAt 0xF3, t.pc)) = some (0xF3, 0x12, 0x40) := by decide
theorem test_V51_call_at_254 :
    (after (withR (atPc 254 [0x50, 0x01]) 1 0x40)).map (fun t => (t.run, t.sp)) =
      some (.faulted .outOfBounds 254 256, 0xF4) := by decide
theorem test_V54_ret : (after (withR ((atPc 64 [0x11]).setMem ((atPc 64 [0x11]).mem.update 0xF3 0x12)) 7 0xF3)).map
    (fun t => (t.sp, t.pc)) = some (0xF4, 0x12) := by decide
theorem test_V55_ret_empty :
    (after (atPc 64 [0x11])).map (·.run) = some (.faulted .stackUnderflow 64 0xF4) := by decide
theorem test_V56_jmp : (after (withR (atPc 0 [0x54, 0x02]) 2 9)).map (·.pc) = some 9 := by decide
theorem test_V59_jeq_taken :
    (after (withR ((atPc 0 [0x55, 0x03]).setFl 1) 3 0x20)).map (·.pc) = some 0x20 := by decide
theorem test_V66_jeq_not_taken_at_254 :
    (after (withR (atPc 254 [0x55, 0x03]) 3 0x20)).map (·.pc) = some 256 := by decide
theorem test_V63_jne_taken :
    (after (withR ((atPc 0 [0x56, 0x03]).setFl 2) 3 0x20)).map (·.pc) = some 0x20 := by decide
theorem test_V64_jne_not_taken :
    (after (withR ((atPc 0 [0x56, 0x03]).setFl 1) 3 0x20)).map (·.pc) = some 2 := by decide

theorem test_terminal_states_have_no_step :
    after { s0 with run := .halted } = none ∧ after { s0 with run := .faulted .stackOverflow 0 0 } = none := by decide
theorem test_memory_stays_canonical :
    Memory.update (Memory.update [] 5 1) 3 2 = [(3, 2), (5, 1)] ∧ Memory.update [(3, 2), (5, 1)] 3 0 = [(5, 1)] := by
  decide
theorem test_cause_codes : [Cause.outOfBounds, .invalidRegister, .unsupportedOperation, .illegalInstruction,
    .stackOverflow, .stackUnderflow].map Cause.code = [1, 2, 3, 4, 5, 6] := by decide
theorem test_load_places_the_image : (boot [0x82, 0x00, 0x05]).map (fun s => (s.mem.byteAt 0, s.mem.byteAt 2, s.mem.byteAt 3)) =
    some (0x82, 0x05, 0) := by decide

/-! ### Witnesses: every hypothesis of a statement can be met, at the ends of its ranges -/

/-- RegisterIndexIsCheckedUnmasked: both ranges at their ends. -/
theorem witness_index_ranges : (7#8).toNat ≤ 7 ∧ 8 ≤ (8#8).toNat ∧ 8 ≤ (255#8).toNat := by decide
/-- MemoryWriteThenReadLaw: a canonical memory, an address at each side of the bound. -/
theorem witness_memory_law : s0.mem.wf = true ∧ (255 : Nat) ≤ 255 ∧ 256 ≤ (256 : Nat) := by decide
/-- CanonicalMemoriesReadingEqualAreEqual: two memories that read the same, reached by different writes. -/
theorem witness_equal_memories : (Memory.update [] 5 1).wf = true ∧ (Memory.update (Memory.update [] 5 2) 5 1).wf = true ∧
    ∀ a, a ≤ 255 → (Memory.update [] 5 1).byteAt a = (Memory.update (Memory.update [] 5 2) 5 1).byteAt a :=
  ⟨rfl, rfl, fun _ _ => rfl⟩
/-- HighBitsGiveOperandCount. -/
theorem witness_decodes : decodeOpcode 0xA7 = some .cmp := by decide
/-- StepRunsTheDecodedInstruction: an instruction at 0, an illegal byte at 255, pc = 256, an operand missing at 254. -/
theorem witness_step_decoded : s0.run = .running ∧ (decode (codeAt s0)).toOption.map Prod.fst = some (.loadImmediate 0 8) ∧
    decode (codeAt (atPc 255 [0xFF])) = .error (.illegalOpcode 0xFF) ∧
    decode (codeAt (atPc 256 [])) = .error .noOpcode ∧
    decode (codeAt (atPc 254 [0xA0, 1])) = .error (.missingOperand .add) := ⟨rfl, by decide, rfl, rfl, rfl⟩
/-- UnknownOpcodeFaults: an illegal byte at 255 (both clauses: the step from there faults). -/
theorem witness_unknown_opcode : (atPc 255 [0xFF]).run = .running ∧ (atPc 255 [0xFF]).memRead 255 = .ok 0xFF ∧
    (0xFF#8) ∉ [0x01#8, 0x82#8, 0x47#8, 0xA0#8, 0xA2#8, 0xA7#8, 0x45#8, 0x46#8, 0x50#8, 0x11#8, 0x54#8, 0x55#8, 0x56#8] :=
  ⟨rfl, rfl, by decide⟩
/-- FetchFaults: a 3-byte instruction at 254 and 255, a 2-byte instruction at 255, each opcode in its place. -/
theorem witness_fetch_faults :
    (∀ op ∈ [0x82#8, 0xA0#8, 0xA2#8, 0xA7#8], ∀ pc ∈ [254#9, 255#9],
      (atPc pc [op]).run = .running ∧ (atPc pc [op]).mem.byteAt pc.toNat = op ∧ pc.toNat ≤ 255 ∧ 256 < pc.toNat + 3) ∧
    (∀ op ∈ [0x47#8, 0x45#8, 0x46#8, 0x50#8, 0x54#8, 0x55#8, 0x56#8],
      (atPc 255 [op]).run = .running ∧ (atPc 255 [op]).mem.byteAt 255 = op ∧ 256 < (255#9).toNat + 2) := by decide
/-- The register forms of the instruction statements: a valid operand at both ends of 0..7, and each invalid clause at its ends,
which no valid operand meets. -/
theorem witness_register_forms : (0#8).toNat = (0 : Reg).val ∧ (7#8).toNat = (7 : Reg).val ∧ 8 ≤ (8#8).toNat ∧
    8 ≤ (255#8).toNat ∧ (7#8).toNat ≤ 7 ∧ ∀ r : Reg, (8#8).toNat ≠ r.val := by decide
/-- CompareSetsExactlyOneFlag: the three orders, from one state. -/
theorem witness_compare_orders : (State.reset.reg 0).toNat = (State.reset.reg 1).toNat ∧
    (State.reset.reg 7).toNat > (State.reset.reg 0).toNat ∧ (State.reset.reg 0).toNat < (State.reset.reg 7).toNat := by decide
/-- PUSH and CALL: SP = 0 for the overflow, SP = 1 and 255 for the store, in canonical memory; CALL at 253 and 254. -/
theorem witness_push_limits : (s0.setSp 0).sp.toNat = 0 ∧ (s0.setSp 1).sp.toNat ≠ 0 ∧ (s0.setSp 255).sp.toNat ≠ 0 ∧
    (s0.setSp 1).mem.wf = true ∧ (253#9).toNat + 2 ≤ 255 ∧ 255 < (254#9).toNat + 2 := by decide
/-- POP and RET: SP = 0xF3 for the pop, SP = 0xF4 for the underflow, and a destination other than r7. -/
theorem witness_pop_limits : (s0.setSp 0xF3).sp.toNat < 0xF4 ∧ 0xF4 ≤ (s0.setSp 0xF4).sp.toNat ∧ (1 : Reg) ≠ 7 := by decide
/-- RetPopsTheProgramCounter: a running core at 256, and one whose byte at pc = 255 is RET. -/
theorem witness_ret_fetch : (atPc 256 []).run = .running ∧ (atPc 256 []).pc.toNat = 256 ∧ (atPc 255 [0x11]).run = .running ∧
    (atPc 255 [0x11]).memRead (atPc 255 [0x11]).pc.toNat = .ok 0x11 := ⟨rfl, rfl, rfl, rfl⟩
/-- JumpGoesToTheRegisterValue: a JMP to its own address. -/
theorem witness_jump_to_itself : (atPc 244 [0x54, 7]).run = .running ∧ fetch (atPc 244 [0x54, 7]) = .ok (.jmp 7) ∧
    (7#8).toNat = (7 : Reg).val ∧ (atPc 244 [0x54, 7]).pc.toNat = ((atPc 244 [0x54, 7]).reg 7).toNat := ⟨rfl, rfl, by decide⟩
/-- JEQ and JNE: FL bit 0 set and clear. -/
theorem witness_branch_flags : (s0.setFl 0x01).fl.getLsbD 0 = true ∧ (s0.setFl 0x04).fl.getLsbD 0 = false := by decide
/-- BranchFollowsTheLastComparison: equal and unequal registers, with a third as the target. -/
theorem witness_compare_then_branch : (0#8).toNat = (0 : Reg).val ∧ (7#8).toNat = (7 : Reg).val ∧
    s0.reg 0 = s0.reg 1 ∧ s0.reg 0 ≠ s0.reg 7 := by decide
/-- InvalidRegisterIffIndexOutOfRange: an instruction of each kind on a running core. -/
theorem witness_bad_and_good_operands : s0.run = .running ∧
    (registerOperands (.add 7 8)).find? (fun op => decide (8 ≤ op.toNat)) = some 8 ∧
    (registerOperands (.loadImmediate 7 255)).find? (fun op => decide (8 ≤ op.toNat)) = none := by decide
/-- StackFaultsComeFromTheStackLimits and FaultsArePrecise: steps that overflow and underflow. -/
theorem witness_stack_faults :
    ((atPc 0 [0x45, 0]).setSp 0).run = .running ∧
    (after ((atPc 0 [0x45, 0]).setSp 0)).map (·.run) = some (.faulted .stackOverflow 0 0) ∧
    (after ((atPc 253 [0x50, 0]).setSp 0)).map (·.run) = some (.faulted .stackOverflow 253 0) ∧
    (after ((atPc 0 [0x46, 0]).setSp 255)).map (·.run) = some (.faulted .stackUnderflow 0 255) := by decide
/-- UnsupportedOperationIsTheGuardNoProgramReaches and the other statements about a step: a step with a next state. -/
theorem witness_step_next : (after s0).isSome = true ∧ (after s0).map (·.run.isFaulted) = some false := by decide
/-- LegalStateIsKeptByEveryStep and OutOfBoundsArisesInThreeWays: legal running states with a step, at each of the three ways. -/
theorem witness_inv : (atPc 256 []).Inv ∧ (atPc 255 [0x47]).Inv ∧ (atPc 254 [0x50, 1]).Inv ∧
    (after (atPc 256 [])).isSome = true ∧ (after (atPc 255 [0x47])).map (·.run) = some (.faulted .outOfBounds 255 256) ∧
    (after (atPc 254 [0x50, 1])).map (·.run) = some (.faulted .outOfBounds 254 256) :=
  ⟨⟨rfl, by decide, .inl rfl, trivial⟩, ⟨rfl, by decide, .inl rfl, trivial⟩, ⟨rfl, by decide, .inl rfl, trivial⟩,
    by decide, by decide, by decide⟩
/-- TerminalStatesHaveNoStep. -/
theorem witness_terminal : State.run { s0 with run := .halted } = .halted ∧
    (State.run { s0 with run := .faulted .outOfBounds 0 256 }).isFaulted = true ∧
    State.run { s0 with run := .halted } ≠ .running := by decide
/-- FlagsAreWrittenByCompareAndReadByBranches: an instruction of each clause with a next state, and an FL that agrees in bit 0
alone. -/
theorem witness_flag_access : (nextState (exec (.cmp 0 1) s0)).isSome = true ∧ (Instr.cmp 0 1).wellFormed = true ∧
    (nextState (exec (.jeq 0) s0)).isSome = true ∧ (nextState (exec (.pop 8) s0)).isSome = true ∧
    (0x06#8).getLsbD 0 = s0.fl.getLsbD 0 ∧ 0x06#8 ≠ s0.fl := by decide
/-- HiddenFlagBitsAreNeverObserved: two different states that agree in all but FL bits 7:1. -/
theorem witness_hidden_flags : SameButHiddenFlags s0 (s0.setFl 0x06) ∧ s0 ≠ s0.setFl 0x06 :=
  ⟨⟨rfl, rfl, rfl, rfl, rfl, rfl⟩, by decide⟩
/-- OnlyPushAndCallStore: a step of a storing and of a non-storing instruction. -/
theorem witness_storing_steps : fetch (atPc 0 [0x45, 3]) = .ok (.push 3) ∧ fetch (atPc 0 [0x50, 3]) = .ok (.call 3) ∧
    (after (atPc 0 [0x45, 3])).isSome = true ∧ fetch s0 = .ok (.loadImmediate 0 8) := ⟨rfl, rfl, by decide, rfl⟩
/-- OutputGrowsOnlyByPrint, OnlyHaltEntersHalted: a step of PRINT and one of HALT. -/
theorem witness_print_and_halt_steps : (after (atPc 0 [0x47, 7])).map (·.out) = some [0xF4] ∧
    (after (atPc 0 [0x01])).map (·.run) = some .halted := by decide
/-- ProgramCounterNeverWraps: a last instruction in memory that is no transfer, a taken and a not-taken branch there. -/
theorem witness_pc_at_the_top : fetch (atPc 253 [0xA0, 0, 1]) = .ok (.add 0 1) ∧
    (after (atPc 253 [0xA0, 0, 1])).map (fun t => (t.run.isFaulted, t.pc)) = some (false, 256) ∧
    (after (atPc 254 [0x56, 0])).map (fun t => (t.run.isFaulted, t.pc)) = some (false, 0) ∧
    (after (atPc 254 [0x55, 0])).map (fun t => (t.run.isFaulted, t.pc)) = some (false, 256) := ⟨rfl, by decide⟩
/-- BootLeavesTheResetState, LegalThroughoutEveryRun: an image that boots. -/
theorem witness_boot : (boot [0x82, 0x00, 0x05]).isSome = true ∧ [0x82#8, 0x00#8, 0x05#8].length ≤ 256 := by decide
/-- BootLeavesTheResetState and OversizedImageNeverStarts where their ranges meet: 256 bytes and 257. -/
theorem witness_image_lengths : (List.replicate 256 (1 : Byte)).length ≤ 256 ∧ 256 < (List.replicate 257 (1 : Byte)).length :=
  ⟨by rw [List.length_replicate], by rw [List.length_replicate]; decide⟩
/-- PushesThenPopsAreLastInFirstOut: SP at both ends of its range, pushes that reach address 0 exactly, and the pushed state
itself as the state to pop from. -/
theorem witness_lifo : s0.mem.wf = true ∧ [1#8, 2#8].length ≤ s0.sp.toNat ∧ s0.sp.toNat ≤ 0xF4 ∧
    [1#8, 2#8].length ≤ (s0.setSp 2).sp.toNat ∧ (s0.setSp 2).sp.toNat ≤ 0xF4 ∧
    ((pushAll [1, 2] (s0.setSp 2)).toOption.map (·.sp)) = some 0 := by decide
/-- CallThenRetReturnsAfterTheCall: the premises at SP = 1 and SP = 0xF4, pc = 253, and the state after the CALL as `u`. -/
theorem witness_call_ret : (0#8).toNat = (0 : Reg).val ∧ (atPc 253 [0x50, 0]).mem.wf = true ∧
    (atPc 253 [0x50, 0]).pc.toNat + 2 ≤ 255 ∧ (atPc 253 [0x50, 0]).sp.toNat ≠ 0 ∧ (atPc 253 [0x50, 0]).sp.toNat ≤ 0xF4 ∧
    ((atPc 253 [0x50, 0]).setSp 1).sp.toNat ≠ 0 ∧ (nextState (exec (.call 0) (atPc 253 [0x50, 0]))).isSome = true := by decide
/-- StackPointerStaysInItsRange and PopAboveTheInitialTopUnderflows where they meet: SP = 0, 0xF4 and 0xF5, with the push and
the pop that succeed. -/
theorem witness_sp_range : (s0.setSp 0).sp.toNat ≤ 0xF4 ∧ (s0.setSp 0xF4).sp.toNat ≤ 0xF4 ∧
    0xF4 < (s0.setSp 0xF5).sp.toNat ∧ ((s0.setSp 0xF4).push 9).toOption.isSome = true ∧
    ((s0.setSp 0xF3).pop).toOption.isSome = true := by decide
/-- StoredCodeIsFetchedNext: PUSH r0 at 6 with SP = 9 stores at 8, the next opcode (program P6 of spec/95_test_vectors.md), with
HALT's byte and with an illegal one. -/
theorem witness_stored_code : (0#8).toNat = (0 : Reg).val ∧ ((atPc 6 [0x45, 0]).setSp 9).mem.wf = true ∧
    ((atPc 6 [0x45, 0]).setSp 9).run = .running ∧ ((atPc 6 [0x45, 0]).setSp 9).sp.toNat ≠ 0 ∧
    pushAddress ((atPc 6 [0x45, 0]).setSp 9) = ((atPc 6 [0x45, 0]).setSp 9).pc.toNat + 2 ∧
    decodeOpcode ((((atPc 6 [0x45, 0]).setSp 9).setReg 0 0x01).reg 0) = some .halt ∧ Opcode.halt.arity = 0 ∧
    decodeOpcode (((atPc 6 [0x45, 0]).setSp 9).reg 0) = none := by decide

end Sys2Proof.Machine.Test
end

section
/-! PROOFS. The register file and the access to FL (spec/10_state.md R24, R25, R29). -/

namespace Sys2Proof.Machine

/-! ### The register file -/

/-- Settles O1: both halves are the register law `setReg_reg`. -/
theorem registerWriteThenReadLaw : Obligations.RegisterWriteThenReadLaw := by
  intro s r v
  refine ⟨by simp, fun q hq => ?_⟩
  have hne : q ≠ r := by simpa using hq
  rw [setReg_reg, if_neg hne]

/-- Settles O2: a byte below 8 is itself the number of the register that `checkReg` answers. -/
theorem registerIndexIsCheckedUnmasked : Obligations.RegisterIndexIsCheckedUnmasked := by
  intro i
  refine ⟨fun h => ?_, checkReg_error⟩
  have hlt : i.toNat < 8 := by omega
  exact ⟨⟨i.toNat, hlt⟩, rfl, checkReg_ok rfl⟩

theorem exists_reg_of_validIndex {i : Byte} (h : validIndex i = true) : ∃ r : Reg, i.toNat = r.val :=
  ⟨⟨i.toNat, of_decide_eq_true h⟩, rfl⟩

/-! ### The primitives under another FL: each does the same and keeps the FL it was given -/

variable {s t : State} {fl : Byte}

@[simp] theorem setFl_setFl (s : State) (fl v : Byte) : (s.setFl fl).setFl v = s.setFl v := rfl

theorem setFl_equalSet (hfl : fl.getLsbD 0 = s.fl.getLsbD 0) : (s.setFl fl).equalSet = s.equalSet := hfl

theorem push_setFl (s : State) (fl v : Byte) : (s.setFl fl).push v = (·.setFl fl) <$> s.push v := by
  rcases push_cases s v with ⟨h, e⟩ | ⟨h, e⟩
  · rw [e, push_error (by simpa using h)]; rfl
  · rw [e, push_ok (by simpa using h)]; rfl

theorem pop_setFl (s : State) (fl : Byte) : (s.setFl fl).pop = Prod.map id (·.setFl fl) <$> s.pop := by
  rcases pop_cases s with ⟨h, e⟩ | ⟨h, e⟩
  · rw [e, pop_error (by simpa using h)]; rfl
  · rw [e, pop_ok (by simpa using h)]; rfl

theorem aluHandler_setFl {op : AluOp} (hop : op ≠ .cmp) (a b : Byte) (s : State) (fl : Byte) :
    aluHandler op a b (s.setFl fl) = (·.setFl fl) <$> aluHandler op a b s := by
  have happly (ra rb : Reg) : aluApply op ra rb (s.setFl fl) = (·.setFl fl) <$> aluApply op ra rb s := by
    cases op with
    | cmp => exact absurd rfl hop
    | add => rfl
    | mul => rfl
    | other n => rfl
  simp only [aluHandler, happly, map_bind, bind_map_left]; rfl

/-- A branch reads FL only for its condition, which is `taken` here. -/
theorem branchHandler_setFl (taken : Bool) (r : Byte) (s : State) (fl : Byte) :
    branchHandler taken r (s.setFl fl) = (·.setFl fl) <$> branchHandler taken r s := by
  simp only [branchHandler, map_bind]
  cases taken <;> rfl

/-- An instruction whose handler does the same under another FL ends the same under it, its fault included. -/
theorem commit_setFl {handler handlerFl : Except Trap State} (h : commit s handler = .next t)
    (hfl : handlerFl = (·.setFl fl) <$> handler) : commit (s.setFl fl) handlerFl = .next (t.setFl fl) := by
  subst hfl
  rcases commit_cases h with rfl | ⟨e, rfl, rfl⟩ <;> rfl

/-! ### The instructions under another FL -/

/-- FL is written by CMP alone (R29). -/
theorem exec_fl_of_ne_cmp {i : Instr} (hcmp : ∀ a b, i ≠ .cmp a b) (h : exec i s = .next t) : t.fl = s.fl := by
  rcases exec_outcome h with hc | ⟨e, -, rfl⟩
  · rcases hc.fl with hfl | ⟨a, b, d, c, hi, -⟩
    · exact hfl
    · exact absurd hi (hcmp a b)
  · rfl

/-- A CMP with valid registers overwrites FL, so what FL was leaves no trace (R29). -/
theorem exec_cmp_setFl {a b : Byte} (hwf : (Instr.cmp a b).wellFormed = true) (h : exec (.cmp a b) s = .next t) :
    exec (.cmp a b) (s.setFl fl) = .next t := by
  obtain ⟨ha, hb⟩ : validIndex a = true ∧ validIndex b = true := by simpa [Instr.wellFormed] using hwf
  obtain ⟨ra, ha⟩ := exists_reg_of_validIndex ha
  obtain ⟨rb, hb⟩ := exists_reg_of_validIndex hb
  rw [← h, exec_cmp_ok ha hb, exec_cmp_ok ha hb, setFl_setFl, setFl_reg, setFl_reg]

/-- No instruction but CMP, JEQ and JNE reads FL (R29). -/
theorem exec_setFl {i : Instr} (hcmp : ∀ a b, i ≠ .cmp a b) (hjeq : ∀ r, i ≠ .jeq r) (hjne : ∀ r, i ≠ .jne r)
    (h : exec i s = .next t) : exec i (s.setFl fl) = .next (t.setFl fl) := by
  cases i with
  | halt =>
    obtain rfl := exec_halt_cases h
    rfl
  | loadImmediate r imm => exact commit_setFl h (by rw [map_bind]; rfl)
  | print r => exact commit_setFl h (by rw [map_bind]; rfl)
  | add a b => exact commit_setFl h (aluHandler_setFl (op := .add) nofun a b s fl)
  | mul a b => exact commit_setFl h (aluHandler_setFl (op := .mul) nofun a b s fl)
  | cmp a b => exact absurd rfl (hcmp a b)
  | push r => exact commit_setFl h (by simp only [push_setFl, map_bind, bind_map_left]; rfl)
  | pop r => exact commit_setFl h (by simp only [pop_setFl, map_bind, bind_map_left]; rfl)
  | call r => exact commit_setFl h (by simp only [push_setFl, map_bind, bind_map_left]; rfl)
  | ret => exact commit_setFl h (by simp only [pop_setFl, map_bind, bind_map_left]; rfl)
  | jmp r => exact commit_setFl h (branchHandler_setFl true r s fl)
  | jeq r => exact absurd rfl (hjeq r)
  | jne r => exact absurd rfl (hjne r)

theorem exec_jeq_setFl {r : Byte} (hfl : fl.getLsbD 0 = s.fl.getLsbD 0) (h : exec (.jeq r) s = .next t) :
    exec (.jeq r) (s.setFl fl) = .next (t.setFl fl) := by
  refine commit_setFl h ?_
  rw [setFl_equalSet hfl, branchHandler_setFl]

theorem exec_jne_setFl {r : Byte} (hfl : fl.getLsbD 0 = s.fl.getLsbD 0) (h : exec (.jne r) s = .next t) :
    exec (.jne r) (s.setFl fl) = .next (t.setFl fl) := by
  refine commit_setFl h ?_
  rw [setFl_equalSet hfl, branchHandler_setFl]

/-- Settles O32: FL passes through every handler but CMP's, and a branch reads of it only bit 0. -/
theorem flagsAreWrittenByCompareAndReadByBranches : Obligations.FlagsAreWrittenByCompareAndReadByBranches := by
  intro i s t h
  refine ⟨fun hcmp => exec_fl_of_ne_cmp hcmp h, ?_, fun hcmp hjeq hjne fl => exec_setFl hcmp hjeq hjne h, ?_⟩
  · rintro a b rfl hwf fl
    exact exec_cmp_setFl hwf h
  · rintro ⟨r, rfl | rfl⟩ fl hfl
    · exact exec_jeq_setFl hfl h
    · exact exec_jne_setFl hfl h

end Sys2Proof.Machine
end

section
/-! PROOFS. LOAD_IMMEDIATE (spec/40_system.md R81), with the fetch fault and the register frame it shares with other
instructions. -/

namespace Sys2Proof.Machine

/-- An operand byte that would lie at 256 or above is out of bounds at 256: pc itself is in memory, so the fetch reads the
opcode, and the first operand address past the end is always 256 (R75, R131). -/
theorem fetchFaults_of_decodeOpcode {op : Byte} {o : Opcode} (hop : decodeOpcode op = some o) :
    FetchFaults op (1 + o.arity) := by
  rintro s hrun hpc rfl hlen
  rcases fetch_cases s with ⟨h, -⟩ | ⟨-, h, -⟩ | ⟨o', -, h, hfetch⟩
  · omega
  · simp [hop] at h
  · obtain rfl : o = o' := by simpa [hop] using h
    rcases hfetch with ⟨-, e⟩ | ⟨hfits, -⟩
    · exact step_of_fetch_error hrun e
    · omega

/-- A register write keeps every other register (R25). -/
theorem regsKept_setReg (s : State) (r : Reg) (v : Byte) : RegsKept [r] s (s.setReg r v) :=
  (registerWriteThenReadLaw s r v).2

theorem exec_loadImmediate_error {s : State} {r imm : Byte} (h : 8 ≤ r.toNat) :
    exec (.loadImmediate r imm) s = .next (s.raise ⟨.invalidRegister, r.toNat⟩) := by
  simp [exec, execLoadImmediate, checkReg_error h]

/-- Settles O12: the fetch is that of any three-byte instruction; then `checkReg` raises, or the one register is written and
pc advanced. -/
theorem loadImmediateWritesItsRegister : Obligations.LoadImmediateWritesItsRegister := by
  intro r imm
  refine ⟨rfl, fetchFaults_of_decodeOpcode (o := .loadImmediate) rfl, fun s => ⟨exec_loadImmediate_error, ?_⟩⟩
  intro a ha
  exact ⟨_, exec_loadImmediate_ok ha, by simp, rfl, regsKept_setReg s a imm, memKept_of_eq rfl, rfl, rfl, rfl⟩

end Sys2Proof.Machine
end

section
/-! PROOFS. ADD and MUL (spec/41_alu.md R91, R92): the faults of a two-register instruction and the register write that the
two share. -/

namespace Sys2Proof.Machine

variable {a b : Byte} {s : State}

/-! ### What every ALU instruction does with a bad operand (R142) -/

theorem aluHandler_takesFault_op1 (op : AluOp) (ha : 8 ≤ a.toNat) :
    TakesFault (commit s (aluHandler op a b s)) s .invalidRegister a.toNat := by
  simp only [aluHandler, checkReg_error ha, except_bind_error]
  rfl

theorem aluHandler_takesFault_op2 (op : AluOp) (ha : a.toNat ≤ 7) (hb : 8 ≤ b.toNat) :
    TakesFault (commit s (aluHandler op a b s)) s .invalidRegister b.toNat := by
  have hop1 : checkReg a = .ok ⟨a.toNat, by omega⟩ := checkReg_ok rfl
  simp only [aluHandler, hop1, checkReg_error hb, except_bind_ok, except_bind_error]
  rfl

/-! ### What ADD and MUL do with the exact result (R94) -/

/-- The exact result `n` is kept modulo 256 in its destination, and pc passes the two operands; nothing else changes. -/
theorem setReg_keepByte_advance (s : State) (r : Reg) (n : Nat) {t : State}
    (ht : t = (s.setReg r (keepByte n)).advance 2) :
    (t.reg r).toNat = n % 256 ∧ t.pc = s.pc + 3#9 ∧ RegsKept [r] s t ∧ MemKept [] s t ∧ t.fl = s.fl ∧ t.run = s.run ∧
      t.out = s.out := by
  subst ht
  exact ⟨by simp, rfl, regsKept_setReg s r _, memKept_of_eq rfl, rfl, rfl, rfl⟩

/-- Settles O14: the two operand faults are the ALU's, and the exact sum of the old values is kept modulo 256. -/
theorem addWrapsModulo256 : Obligations.AddWrapsModulo256 := by
  intro a b
  refine ⟨rfl, fetchFaults_of_decodeOpcode (o := .add) rfl, fun s =>
    ⟨aluHandler_takesFault_op1 .add, aluHandler_takesFault_op2 .add, fun ra rb ha hb => ?_⟩⟩
  exact ⟨_, exec_add_ok ha hb, setReg_keepByte_advance s ra _ rfl⟩

/-- Settles O15: the two operand faults are the ALU's, and the exact product of the old values is kept modulo 256. -/
theorem mulKeepsTheLowByte : Obligations.MulKeepsTheLowByte := by
  intro a b
  refine ⟨rfl, fetchFaults_of_decodeOpcode (o := .mul) rfl, fun s =>
    ⟨aluHandler_takesFault_op1 .mul, aluHandler_takesFault_op2 .mul, fun ra rb ha hb => ?_⟩⟩
  exact ⟨_, exec_mul_ok ha hb, setReg_keepByte_advance s ra _ rfl⟩

end Sys2Proof.Machine
end

section
/-! PROOFS. The stack (spec/42_stack.md): RET alone, RET after a CALL, and as many pops as pushes (R106-R108). -/

namespace Sys2Proof.Machine

variable {s t : State}

/-! ### SP and the byte at the top around a push and a pop (R100, R101) -/

/-- The byte a push stores is the byte at the SP it leaves (R100). -/
theorem byteAt_pushed {v : Byte} (hwf : s.mem.wf = true) (h0 : s.sp ≠ 0) :
    (s.mem.update (pushAddress s) v).byteAt (s.sp - 1).toNat = v := by
  rw [pushed_sp h0, byteAt_update hwf, if_pos rfl]

/-- Below the limit of pop, SP does not wrap when it goes up (R101). -/
theorem popped_sp (h : s.sp.toNat < 0xF4) : (s.setSp (s.sp + 1)).sp.toNat = s.sp.toNat + 1 := by
  rw [setSp_sp]
  bv_omega

/-- Inside memory, equal reads are equal bytes. -/
theorem byteAt_eq_of_memRead_eq {a : Nat} (ha : a < 256) (h : t.memRead a = s.memRead a) :
    t.mem.byteAt a = s.mem.byteAt a := by
  simpa [memRead_ok ha] using h

/-! ### RET (R106) -/

/-- A jump goes to the byte's own value: widening it to a pc loses nothing (R27). -/
theorem jump_pc_toNat (s : State) (v : Byte) : (s.jump v).pc.toNat = v.toNat :=
  BitVec.toNat_setWidth_of_le (by decide)

theorem fetch_of_pc_outside (h : 256 ≤ s.pc.toNat) : fetch s = .error ⟨.outOfBounds, s.pc.toNat⟩ := by
  simp only [fetch, memRead_error h, except_bind_error]

/-- An opcode without operands is fetched wherever it can be read, at 255 too (R75). -/
theorem fetch_of_arity_zero {op : Byte} {o : Opcode} (hop : s.memRead s.pc.toNat = .ok op)
    (ho : decodeOpcode op = some o) (h0 : o.arity = 0) : fetch s = .ok (o.instr 0 0) := by
  simp [fetch, hop, ho, h0]

theorem exec_ret_error (h : 0xF4 ≤ s.sp.toNat) :
    exec .ret s = .next (s.raise ⟨.stackUnderflow, s.sp.toNat⟩) := by
  simp only [exec, execRet, pop_error h, except_bind_error, commit_error]

/-- Settles O20: an opcode without operands faults in its fetch only at 256, and RET is one pop followed by a jump to the
popped byte. -/
theorem retPopsTheProgramCounter : Obligations.RetPopsTheProgramCounter := by
  refine ⟨rfl, fun s hrun hpc => ?_, fun s hrun hop => ?_, fun s => ⟨exec_ret_error, fun hsp => ?_⟩⟩
  · exact hpc ▸ step_of_fetch_error hrun (fetch_of_pc_outside hpc.ge)
  · exact step_of_fetch_ok hrun (fetch_of_arity_zero (o := .ret) hop rfl rfl)
  · have hread : s.memRead s.sp.toNat = .ok (s.mem.byteAt s.sp.toNat) := memRead_ok (by omega)
    exact ⟨_, _, exec_ret_ok hsp, hread, jump_pc_toNat s _, popped_sp hsp, regsKept_setReg s 7 _, memKept_of_eq rfl,
      rfl, rfl, rfl⟩

/-! ### CALL then RET (R108) -/

/-- Settles O46: CALL leaves the return address in the byte at its SP, and that byte is what RET jumps to. -/
theorem callThenRetReturnsAfterTheCall : Obligations.CallThenRetReturnsAfterTheCall := by
  intro s r a hr hwf hpc hsp hlim
  have h0 : s.sp ≠ 0 := fun h => hsp (sp_toNat_eq_zero.mpr h)
  refine ⟨_, exec_call_ok hr (by omega) h0, fun u husp hread => ?_⟩
  simp only [jump_sp, setMem_sp, setSp_sp] at husp hread
  have hpushed : u.sp.toNat = s.sp.toNat - 1 := husp ▸ pushed_sp h0
  have hret : u.mem.byteAt u.sp.toNat = BitVec.ofNat 8 (s.pc.toNat + 2) := by
    rw [husp]
    exact (byteAt_eq_of_memRead_eq (BitVec.isLt _) hread).trans (byteAt_pushed hwf h0)
  refine ⟨_, exec_ret_ok (by omega), ?_, ?_⟩
  · rw [jump_pc_toNat, hret, BitVec.toNat_ofNat]
    exact Nat.mod_eq_of_lt (by omega)
  · rw [jump_sp, setSp_sp, husp, BitVec.sub_add_cancel]

/-! ### Pushes then as many pops (R107) -/

/-- The `n` bytes from SP up: the top of the stack first. -/
def stackBytes (s : State) (n : Nat) : List Byte := (List.range' s.sp.toNat n).map s.mem.byteAt

/-- The block of `n + 1` bytes from its top: the byte at SP, then what a pop leaves. -/
theorem stackBytes_succ_top {n : Nat} (h : s.sp.toNat < 0xF4) :
    stackBytes s (n + 1) = s.mem.byteAt s.sp.toNat :: stackBytes (s.setSp (s.sp + 1)) n := by
  simp only [stackBytes, List.range'_succ, List.map_cons, setSp_mem, popped_sp h]

/-- The block of `n + 1` bytes from its bottom: the byte stored first has the highest address. -/
theorem stackBytes_succ_bottom (s : State) (n : Nat) :
    stackBytes s (n + 1) = stackBytes s n ++ [s.mem.byteAt (s.sp.toNat + n)] := by
  simp only [stackBytes, List.range'_1_concat, List.map_append, List.map_cons, List.map_nil]

/-- Pops give the bytes from SP up and leave SP above them (R101). -/
theorem popAll_ok {n : Nat} (h : s.sp.toNat + n ≤ 0xF4) :
    ∃ u, popAll n s = .ok (stackBytes s n, u) ∧ u.sp.toNat = s.sp.toNat + n := by
  induction n generalizing s with
  | zero => exact ⟨s, rfl, rfl⟩
  | succ n ih =>
    have hsp : s.sp.toNat < 0xF4 := by omega
    have hup := popped_sp hsp
    obtain ⟨u, hu, husp⟩ := ih (s := s.setSp (s.sp + 1)) (by omega)
    refine ⟨u, ?_, by omega⟩
    simp only [popAll, pop_ok hsp, hu, except_bind_ok, stackBytes_succ_top hsp]

/-- Pushes leave their values below the old SP, the last one on top, and every byte from the old SP up as it was (R100). -/
theorem pushAll_ok {vs : List Byte} (hwf : s.mem.wf = true) (hroom : vs.length ≤ s.sp.toNat) :
    ∃ t, pushAll vs s = .ok t ∧ t.sp.toNat + vs.length = s.sp.toNat ∧ stackBytes t vs.length = vs.reverse ∧
      ∀ a, s.sp.toNat ≤ a → t.mem.byteAt a = s.mem.byteAt a := by
  induction vs generalizing s with
  | nil => exact ⟨s, rfl, rfl, rfl, fun _ _ => rfl⟩
  | cons v vs ih =>
    rw [List.length_cons] at hroom
    have h0 : s.sp ≠ 0 := fun h => by have := sp_toNat_eq_zero.mpr h; omega
    have hdown : (s.sp - 1).toNat + 1 = s.sp.toNat := by rw [pushed_sp h0, pushAddress]; omega
    obtain ⟨t, ht, hsp, hbytes, hkept⟩ :=
      ih (s := (s.setSp (s.sp - 1)).setMem (s.mem.update (pushAddress s) v))
        (update_wf hwf (pushAddress_lt s)) (by simp only [setMem_sp, setSp_sp]; omega)
    simp only [setMem_sp, setSp_sp, setMem_mem] at hsp hkept
    refine ⟨t, ?_, ?_, ?_, fun a ha => ?_⟩
    · simp only [pushAll, push_ok h0, except_bind_ok, ht]
    · rw [List.length_cons]; omega
    · rw [List.length_cons, stackBytes_succ_bottom, hbytes, hsp, hkept _ le_rfl, byteAt_pushed hwf h0,
        List.reverse_cons]
    · have hne : a ≠ pushAddress s := by rw [← pushed_sp h0]; omega
      rw [hkept a (by omega), byteAt_update_ne hne]

/-- Settles O45: the pushes leave their values reversed from SP up, and the pops give the bytes from SP up. -/
theorem pushesThenPopsAreLastInFirstOut : Obligations.PushesThenPopsAreLastInFirstOut := by
  intro vs s hwf hroom hlim
  obtain ⟨t, ht, hsp, hbytes, -⟩ := pushAll_ok hwf hroom
  refine ⟨t, ht, fun t' hsp' hread => ?_⟩
  obtain ⟨u, hu, husp⟩ := popAll_ok (s := t') (n := vs.length) (by rw [hsp']; omega)
  have hsame : stackBytes t' vs.length = stackBytes t vs.length := by
    rw [stackBytes, stackBytes, hsp']
    refine List.map_congr_left fun a ha => ?_
    obtain ⟨hlo, hhi⟩ := List.mem_range'_1.mp ha
    exact byteAt_eq_of_memRead_eq (by omega) (hread a hlo (by omega))
  refine ⟨u, by rw [hu, hsame, hbytes], BitVec.eq_of_toNat_eq ?_⟩
  rw [husp, hsp', hsp]

end Sys2Proof.Machine
end

section
/-! PROOFS. JMP (spec/43_branch.md R120), with the operand fault that every branch shares and the hang of a jump to itself. -/

namespace Sys2Proof.Machine

variable {s : State}

/-- A branch checks its operand before its condition: a bad index faults whether or not the branch is taken (R142, D11). -/
theorem branchHandler_takesFault (taken : Bool) {r : Byte} (h : 8 ≤ r.toNat) :
    TakesFault (commit s (branchHandler taken r s)) s .invalidRegister r.toNat := by
  simp only [branchHandler, checkReg_error h, except_bind_error]
  rfl

/-- A jump writes pc alone, so one to the present pc leaves the whole state. -/
theorem jump_eq_self {v : Byte} (h : s.pc.toNat = v.toNat) : s.jump v = s := by
  have hpc : (s.jump v).pc = s.pc := BitVec.eq_of_toNat_eq ((jump_pc_toNat s v).trans h.symm)
  exact state_eq_of_regs rfl (fun _ => rfl) hpc rfl rfl rfl

/-- A running state that steps to itself is never left (R167). -/
theorem hangs_of_step_self (hrun : s.run = .running) (hstep : step s = .next s) : Hangs s := by
  intro k
  induction k with
  | zero => exact hrun
  | succ k ih => rwa [runSteps_next hstep]

/-- Settles O21: the target is the register's value widened to a pc; when that is pc itself, the step leads back to the same
state. -/
theorem jumpGoesToTheRegisterValue : Obligations.JumpGoesToTheRegisterValue := by
  intro r
  refine ⟨rfl, fetchFaults_of_decodeOpcode (o := .jmp) rfl, fun s a hrun ha hfetch hself => ?_, fun s =>
    ⟨branchHandler_takesFault true, fun a ha => ?_⟩⟩
  · have hstep : step s = .next (s.jump (s.reg a)) := (step_of_fetch_ok hrun hfetch).trans (exec_jmp_ok ha)
    rw [jump_eq_self hself] at hstep
    exact hangs_of_step_self hrun hstep
  · exact ⟨_, exec_jmp_ok ha, jump_pc_toNat s _, fun _ _ => rfl, memKept_of_eq rfl, rfl, rfl, rfl⟩

end Sys2Proof.Machine
end

section
/-! PROOFS. Where the faults come from (spec/60_exceptions.md R133-R136) and the terminal states (R147). -/

namespace Sys2Proof.Machine

variable {s t : State} {cause : Cause} {fpc : Pc} {info : Nat}

/-! ### The terminal states (R147) -/

theorem step_of_halted (h : s.run = .halted) : step s = .fault .coreHalted := by
  simp [step, h]

theorem step_of_isFaulted (h : s.run.isFaulted = true) : step s = .fault .coreFaulted := by
  cases hrun : s.run with
  | running => simp [hrun, RunState.isFaulted] at h
  | halted => simp [hrun, RunState.isFaulted] at h
  | faulted cause fpc info => simp [step, hrun]

/-- The run loop stays where there is no step (R75). -/
theorem runSteps_of_fault {r : Fault} (h : step s = .fault r) (k : Nat) : runSteps k s = s := by
  cases k with
  | zero => rfl
  | succ k => simp [runSteps, h]

/-- Settles O30: a state that is not Running is Halted or Faulted, and neither has a step. -/
theorem terminalStatesHaveNoStep : Obligations.TerminalStatesHaveNoStep := by
  intro s
  refine ⟨step_of_halted, step_of_isFaulted, fun hrun k => ?_⟩
  cases h : s.run with
  | running => exact absurd h hrun
  | halted => exact runSteps_of_fault (step_of_halted h) k
  | faulted cause fpc info => exact runSteps_of_fault (step_of_isFaulted (by rw [h]; rfl)) k

/-! ### The trap behind a faulted state -/

/-- Fault entry records the pc and the trap, and the record gives both back (R138). -/
theorem raise_run_eq_faulted {e : Trap} (h : (s.raise e).run = .faulted cause fpc info) :
    fpc = s.pc ∧ e = ⟨cause, info⟩ := by
  cases h
  exact ⟨rfl, rfl⟩

/-- A step that ends Faulted records its own pc and a trap that the fetched instruction or the fetch raised (R138). -/
theorem step_faulted_cases (h : step s = .next t) (hf : t.run = .faulted cause fpc info) :
    fpc = s.pc ∧
      ((∃ i, fetch s = .ok i ∧ InstrTrap i s ⟨cause, info⟩) ∨ fetch s = .error ⟨cause, info⟩) := by
  obtain ⟨hrun, ⟨i, -, -, hc⟩ | ⟨i, e, hi, he, rfl⟩ | ⟨e, he, rfl⟩⟩ := step_outcome h
  · have := completes_not_faulted hrun hc
    simp [hf, RunState.isFaulted] at this
  · obtain ⟨rfl, rfl⟩ := raise_run_eq_faulted hf
    exact ⟨rfl, .inl ⟨i, hi, he⟩⟩
  · obtain ⟨rfl, rfl⟩ := raise_run_eq_faulted hf
    exact ⟨rfl, .inr he⟩

/-! ### IllegalInstruction and UnsupportedOperation (R133, R134) -/

/-- A byte outside R64's list decodes to no opcode. -/
theorem decodeOpcode_eq_none_of_notMem {op : Byte}
    (h : op ∉ [0x01#8, 0x82#8, 0x47#8, 0xA0#8, 0xA2#8, 0xA7#8, 0x45#8, 0x46#8, 0x50#8, 0x11#8, 0x54#8, 0x55#8, 0x56#8]) :
    decodeOpcode op = none := by
  refine Option.eq_none_iff_forall_ne_some.mpr fun o ho => h ?_
  rw [decodeOpcode_eq_some.mp ho]
  cases o <;> decide

theorem fetch_of_decodeOpcode_eq_none {op : Byte} (hop : s.memRead s.pc.toNat = .ok op)
    (hd : decodeOpcode op = none) : fetch s = .error ⟨.illegalInstruction, op.toNat⟩ := by
  simp [fetch, hop, hd]

theorem not_instrTrap_illegalInstruction {i : Instr} : ¬ InstrTrap i s ⟨.illegalInstruction, info⟩ := by
  simp [InstrTrap]

theorem not_instrTrap_unsupportedOperation {i : Instr} : ¬ InstrTrap i s ⟨.unsupportedOperation, info⟩ := by
  simp [InstrTrap]

/-- Settles O10: a byte outside the list decodes to nothing, so the fetch raises; and only a fetch raises this cause, with the
byte it could not decode. -/
theorem unknownOpcodeFaults : Obligations.UnknownOpcodeFaults := by
  intro s hrun
  refine ⟨fun op hop hnot => ?_, fun t fpc info h hf => ?_⟩
  · exact step_of_fetch_error hrun (fetch_of_decodeOpcode_eq_none hop (decodeOpcode_eq_none_of_notMem hnot))
  · obtain ⟨-, ⟨i, -, htrap⟩ | herr⟩ := step_faulted_cases h hf
    · exact absurd htrap not_instrTrap_illegalInstruction
    · obtain ⟨he, hpc, hd⟩ | ⟨he, -⟩ | ⟨he, -⟩ := fetch_error_cases herr
      · cases he
        exact ⟨_, memRead_ok hpc, hd, rfl⟩
      · cases he
      · cases he

/-- Settles O27: the guard is the ALU's last case, and neither an instruction nor a fetch has a trap of that cause. -/
theorem unsupportedOperationIsTheGuardNoProgramReaches :
    Obligations.UnsupportedOperationIsTheGuardNoProgramReaches := by
  refine ⟨fun _ _ _ _ => rfl, fun s t fpc info h hf => ?_⟩
  obtain ⟨-, ⟨i, -, htrap⟩ | herr⟩ := step_faulted_cases h hf
  · exact not_instrTrap_unsupportedOperation htrap
  · obtain ⟨he, -⟩ | ⟨he, -⟩ | ⟨he, -⟩ := fetch_error_cases herr <;> cases he

/-! ### StackOverflow and StackUnderflow (R135, R136) -/

theorem exec_push_error {r : Byte} (hr : r.toNat < 8) (h0 : s.sp = 0) :
    exec (.push r) s = .next (s.raise ⟨.stackOverflow, 0⟩) := by
  simp only [exec, execPush, checkReg_ok (r := ⟨r.toNat, hr⟩) rfl, push_error h0, except_bind_ok, except_bind_error,
    commit_error]

theorem exec_call_error {r : Byte} (hr : r.toNat < 8) (hpc : s.pc.toNat + 2 < 256) (h0 : s.sp = 0) :
    exec (.call r) s = .next (s.raise ⟨.stackOverflow, 0⟩) := by
  simp only [exec, execCall, checkReg_ok (r := ⟨r.toNat, hr⟩) rfl, returnAddress_ok hpc, push_error h0, except_bind_ok,
    except_bind_error, commit_error]

theorem exec_pop_error {r : Byte} (hr : r.toNat < 8) (hsp : 0xF4 ≤ s.sp.toNat) :
    exec (.pop r) s = .next (s.raise ⟨.stackUnderflow, s.sp.toNat⟩) := by
  simp only [exec, execPop, checkReg_ok (r := ⟨r.toNat, hr⟩) rfl, pop_error hsp, except_bind_ok, except_bind_error,
    commit_error]

/-- The condition under which an instruction may overflow or underflow the stack is one under which it does. -/
theorem exec_of_instrTrap {i : Instr} {e : Trap} (hc : e.cause = .stackOverflow ∨ e.cause = .stackUnderflow)
    (h : InstrTrap i s e) : exec i s = .next (s.raise e) := by
  rcases h with ⟨he, -⟩ | ⟨rfl, -⟩ | ⟨rfl, h0, r, hr, rfl | ⟨rfl, hpc⟩⟩ | ⟨rfl, hsp, rfl | ⟨r, hr, rfl⟩⟩
  · simp [he] at hc
  · simp at hc
  · exact exec_push_error hr h0
  · exact exec_call_error hr hpc h0
  · exact exec_ret_error hsp
  · exact exec_pop_error hr hsp

/-- A running core ends a step in a stack fault exactly when it fetched an instruction that takes it. -/
theorem step_stackFault_iff (hrun : s.run = .running) (h : step s = .next t)
    (hc : cause = .stackOverflow ∨ cause = .stackUnderflow) :
    t.run = .faulted cause fpc info ↔ fpc = s.pc ∧ ∃ i, fetch s = .ok i ∧ InstrTrap i s ⟨cause, info⟩ := by
  refine ⟨fun hf => ?_, ?_⟩
  · obtain ⟨hpc, hi | herr⟩ := step_faulted_cases h hf
    · exact ⟨hpc, hi⟩
    · obtain ⟨he, -⟩ | ⟨he, -⟩ | ⟨he, -⟩ := fetch_error_cases herr <;> cases he <;> simp at hc
  · rintro ⟨rfl, i, hi, htrap⟩
    have hstep := (step_of_fetch_ok hrun hi).trans (exec_of_instrTrap hc htrap)
    obtain rfl : t = s.raise ⟨cause, info⟩ := by simpa [h] using hstep
    rfl

theorem instrTrap_stackOverflow_iff {i : Instr} : InstrTrap i s ⟨.stackOverflow, info⟩ ↔
    info = 0 ∧ s.sp = 0 ∧ ∃ r : Byte, r.toNat < 8 ∧ (i = .push r ∨ (i = .call r ∧ s.pc.toNat + 2 < 256)) := by
  simp [InstrTrap]

theorem instrTrap_stackUnderflow_iff {i : Instr} : InstrTrap i s ⟨.stackUnderflow, info⟩ ↔
    info = s.sp.toNat ∧ 0xF4 ≤ s.sp.toNat ∧ (i = .ret ∨ ∃ r : Byte, r.toNat < 8 ∧ i = .pop r) := by
  simp [InstrTrap]

/-- Settles O26: the fetch never raises a stack fault, and an instruction does exactly under its `InstrTrap` condition. -/
theorem stackFaultsComeFromTheStackLimits : Obligations.StackFaultsComeFromTheStackLimits := by
  intro s t hrun h
  refine ⟨fun fpc info => ?_, fun fpc info => ?_⟩
  · rw [step_stackFault_iff hrun h (.inl rfl)]
    simp only [instrTrap_stackOverflow_iff, sp_toNat_eq_zero]
    constructor
    · rintro ⟨hpc, i, hi, hinfo, h0, r, hr, rfl | ⟨rfl, hret⟩⟩
      · exact ⟨hpc, hinfo, h0, r, by omega, .inl hi⟩
      · exact ⟨hpc, hinfo, h0, r, by omega, .inr ⟨hi, by omega⟩⟩
    · rintro ⟨hpc, hinfo, h0, r, hr, hi | ⟨hi, hret⟩⟩
      · exact ⟨hpc, _, hi, hinfo, h0, r, by omega, .inl rfl⟩
      · exact ⟨hpc, _, hi, hinfo, h0, r, by omega, .inr ⟨rfl, by omega⟩⟩
  · rw [step_stackFault_iff hrun h (.inr rfl)]
    simp only [instrTrap_stackUnderflow_iff]
    constructor
    · rintro ⟨hpc, i, hi, hinfo, hsp, rfl | ⟨r, hr, rfl⟩⟩
      · exact ⟨hpc, hinfo, hsp, .inl hi⟩
      · exact ⟨hpc, hinfo, hsp, .inr ⟨r, by omega, hi⟩⟩
    · rintro ⟨hpc, hinfo, hsp, hi | ⟨r, hr, hi⟩⟩
      · exact ⟨hpc, _, hi, hinfo, hsp, .inl rfl⟩
      · exact ⟨hpc, _, hi, hinfo, hsp, .inr ⟨r, by omega, rfl⟩⟩

end Sys2Proof.Machine
end

section
/-! PROOFS. Memory (spec/20_memory.md R40-R43): the controller's law, and that the canonical form (log 18) names a memory
once. -/

namespace Sys2Proof.Machine

variable {m n : Memory} {k : Nat} {v : Byte}

/-- Settles O3: in range the write is an update of the canonical memory, and outside both operations raise. -/
theorem memoryWriteThenReadLaw : Obligations.MemoryWriteThenReadLaw := by
  intro s a v hwf
  refine ⟨fun ha => ?_, fun ha => ⟨memWrite_error ha, memRead_error ha⟩⟩
  have hlt : a < 256 := by omega
  refine ⟨_, memWrite_ok hlt, ?_, memKept_of_update rfl, update_wf hwf hlt⟩
  rw [memRead_ok hlt, setMem_mem, byteAt_update hwf, if_pos rfl]

theorem byteAt_cons_self : Memory.byteAt ((k, v) :: m) k = v := by
  simp [Memory.byteAt]

/-- What a memory without the first cell reads as is read off the whole memory. -/
theorem byteAt_tail {lo : Nat} (h : Memory.wfFrom lo ((k, v) :: m) = true) (a : Nat) :
    m.byteAt a = if a = k then 0x00#8 else Memory.byteAt ((k, v) :: m) a := by
  obtain ⟨-, -, -, hm⟩ := wfFrom_cons.mp h
  split
  · next hak => exact byteAt_of_wfFrom hm (by omega)
  · next hak => simp [Memory.byteAt, Ne.symm hak]

/-- The first cell of a canonical memory is the lowest address that does not read as zero. -/
theorem head_le_of_byteAt_ne_zero {lo a : Nat} (h : Memory.wfFrom lo ((k, v) :: m) = true)
    (ha : Memory.byteAt ((k, v) :: m) a ≠ 0x00#8) : k ≤ a := by
  obtain ⟨-, hk, hv, hm⟩ := wfFrom_cons.mp h
  by_contra hlt
  exact ha (byteAt_of_wfFrom (wfFrom_cons.mpr ⟨le_rfl, hk, hv, hm⟩) (by omega))

theorem byteAt_head_ne_zero {lo : Nat} (h : Memory.wfFrom lo ((k, v) :: m) = true) :
    Memory.byteAt ((k, v) :: m) k ≠ 0x00#8 := by
  obtain ⟨-, -, hv, -⟩ := wfFrom_cons.mp h
  rwa [byteAt_cons_self]

/-- Canonical memories that read the same at every address have the same cells, one after another. -/
theorem eq_of_byteAt_eq {lo lo' : Nat} (hm : Memory.wfFrom lo m = true) (hn : Memory.wfFrom lo' n = true)
    (h : ∀ a, m.byteAt a = n.byteAt a) : m = n := by
  induction m generalizing n lo lo' with
  | nil =>
    cases n with
    | nil => rfl
    | cons c n => exact absurd (h c.1).symm (byteAt_head_ne_zero hn)
  | cons c m ih =>
    obtain ⟨k, v⟩ := c
    cases n with
    | nil => exact absurd (h k) (byteAt_head_ne_zero hm)
    | cons d n =>
      obtain ⟨j, w⟩ := d
      have hjk : j ≤ k := head_le_of_byteAt_ne_zero hn (h k ▸ byteAt_head_ne_zero hm)
      have hkj : k ≤ j := head_le_of_byteAt_ne_zero hm (h j ▸ byteAt_head_ne_zero hn)
      obtain rfl : k = j := le_antisymm hkj hjk
      obtain rfl : v = w := by simpa only [byteAt_cons_self] using h k
      obtain ⟨-, -, -, hm'⟩ := wfFrom_cons.mp hm
      obtain ⟨-, -, -, hn'⟩ := wfFrom_cons.mp hn
      rw [ih hm' hn' fun a => by rw [byteAt_tail hm, byteAt_tail hn, h a]]

/-- Settles O4: above the address space both read as zero, so they read the same everywhere. -/
theorem canonicalMemoriesReadingEqualAreEqual : Obligations.CanonicalMemoriesReadingEqualAreEqual := by
  intro m n hm hn h
  refine eq_of_byteAt_eq hm hn fun a => ?_
  rcases Nat.lt_or_ge a 256 with ha | ha
  · exact h a (by omega)
  · rw [byteAt_of_large hm ha, byteAt_of_large hn ha]

end Sys2Proof.Machine
end

section
/-! PROOFS. The decoder and the encoder (spec/30_encoding.md R60-R69), and the step as the instruction that the bytes at
pc decode to (R75). -/

namespace Sys2Proof

/-! ### Decode and encode (R60-R62, R69) -/

/-- The bytes of the instruction an opcode makes: the opcode byte, then as many operands as its count in R62 says. -/
theorem encode_instr (o : Opcode) (op1 op2 : Byte) :
    encode (o.instr op1 op2) = o.byte :: [op1, op2].take o.arity := by
  cases o <;> rfl

theorem decode_encode (i : Instr) (rest : List Byte) : decode (encode i ++ rest) = .ok (i, rest) := by
  cases i <;> rfl

/-- What decodes is the encoding of what it decodes to: an opcode byte of R64 and its operands are the bytes that were
read. -/
theorem eq_encode_of_decode {i : Instr} {bytes rest : List Byte} (h : decode bytes = .ok (i, rest)) :
    bytes = encode i ++ rest := by
  cases bytes with
  | nil => cases h
  | cons op tail =>
    cases hop : decodeOpcode op with
    | none => simp [decode, hop] at h
    | some o =>
      obtain rfl := decodeOpcode_eq_some.mp hop
      simp only [decode, hop] at h
      split at h <;> cases h
      · next h0 => simp [encode_instr, h0]
      · next h1 => simp [encode_instr, h1]
      · next h2 => simp [encode_instr, h2]

/-- Settles O6: an encoding decodes to its instruction, and nothing else does. -/
theorem decodeAndEncodeAgree : Obligations.DecodeAndEncodeAgree := by
  intro i bytes rest
  refine ⟨eq_encode_of_decode, ?_⟩
  rintro rfl
  exact decode_encode i rest

/-- Settles O5: each of the eight words is short enough to be decoded by computation. -/
theorem opcodeWordsDecodeAsSpecified : Obligations.OpcodeWordsDecodeAsSpecified :=
  ⟨rfl, rfl, rfl, rfl, rfl, rfl, rfl, rfl⟩

/-! ### The opcode table (R63, R64, R68) -/

/-- Settles O7: the listed bytes are the bytes of the 13 opcodes, and the bytes that do not decode are counted. -/
theorem exactlyThirteenOpcodesAreLegal : Obligations.ExactlyThirteenOpcodesAreLegal := by
  refine ⟨fun b => ⟨?_, fun hb => ?_⟩, by decide +kernel⟩
  · rintro ⟨o, ho⟩
    by_contra hnot
    simp [Machine.decodeOpcode_eq_none_of_notMem hnot] at ho
  · refine Option.isSome_iff_exists.mp ?_
    revert b; decide

/-- Settles O8: a byte that decodes is the byte of its opcode, and the 13 of them are compared with R62's counts. -/
theorem highBitsGiveOperandCount : Obligations.HighBitsGiveOperandCount := by
  intro b o ho
  obtain rfl := decodeOpcode_eq_some.mp ho
  cases o <;> rfl

end Sys2Proof

namespace Sys2Proof.Machine

variable {s : State}

/-! ### The step and the decoder (R75) -/

theorem codeAt_of_pc_outside (h : 256 ≤ s.pc.toNat) : codeAt s = [] := by
  simp [codeAt, Nat.sub_eq_zero_of_le h]

/-- An opcode with fewer bytes after it than its operand count is no instruction (R62). -/
theorem decode_missingOperand {o : Opcode} {tail : List Byte} (h : tail.length < o.arity) :
    decode (o.byte :: tail) = .error (.missingOperand o) := by
  simp only [decode, decodeOpcode_byte]
  split
  · next h0 => omega
  · next h1 => simp [h1] at h
  · next h2 => simp [h2] at h
  · rfl

/-- An instruction whose bytes all lie in memory leads the bytes that are decoded (R60). -/
theorem codeAt_eq_encode_append {o : Opcode} {op1 op2 : Byte} (hop : s.mem.byteAt s.pc.toNat = o.byte)
    (hlen : s.pc.toNat + o.arity < 256) (h1 : 1 ≤ o.arity → op1 = s.mem.byteAt (s.pc.toNat + 1))
    (h2 : 2 ≤ o.arity → op2 = s.mem.byteAt (s.pc.toNat + 2)) :
    ∃ rest, codeAt s = encode (o.instr op1 op2) ++ rest := by
  have hle := arity_le_two o
  rw [codeAt_cons (by omega), encode_instr, hop]
  obtain ⟨k, hk⟩ : ∃ k, 255 - s.pc.toNat = o.arity + k := ⟨255 - s.pc.toNat - o.arity, by omega⟩
  rw [hk]
  have : o.arity = 0 ∨ o.arity = 1 ∨ o.arity = 2 := by omega
  rcases this with ha | ha | ha
  · simp [ha]
  · simp [ha, h1, Nat.add_comm 1 k, List.range'_succ]
  · simp [ha, h1, h2, Nat.add_comm 2 k, List.range'_succ]

/-- The fault a fetch takes where the decoder gives no instruction (R131, R134). -/
def fetchTrap (s : State) : DecodeError → Trap
  | .noOpcode => ⟨.outOfBounds, s.pc.toNat⟩
  | .illegalOpcode op => ⟨.illegalInstruction, op.toNat⟩
  | .missingOperand _ => ⟨.outOfBounds, 256⟩

/-- A fetch is the decoder on the bytes from pc to the end of memory: both judge the opcode before any operand (D13). -/
theorem fetch_eq_decode_codeAt (s : State) :
    fetch s = ((decode (codeAt s)).mapError (fetchTrap s)).map Prod.fst := by
  rcases fetch_cases s with
    ⟨hpc, e⟩ | ⟨hpc, hop, e⟩ | ⟨o, hpc, hop, ⟨hlen, e⟩ | ⟨hlen, op1, op2, e, h1, h2⟩⟩
  · rw [e, codeAt_of_pc_outside hpc]
    rfl
  · have hd : decode (codeAt s) = .error (.illegalOpcode (s.mem.byteAt s.pc.toNat)) := by
      simp [codeAt_cons hpc, decode, hop]
    rw [e, hd]
    rfl
  · have hd : decode (codeAt s) = .error (.missingOperand o) := by
      rw [codeAt_cons hpc, decodeOpcode_eq_some.mp hop]
      exact decode_missingOperand (by simp; omega)
    rw [e, hd]
    rfl
  · obtain ⟨rest, hcode⟩ := codeAt_eq_encode_append (decodeOpcode_eq_some.mp hop) hlen h1 h2
    rw [e, hcode, decode_encode]
    rfl

/-- Settles O9: a step runs what the fetch gives, and the fetch is the decoder on the bytes at pc. -/
theorem stepRunsTheDecodedInstruction : Obligations.StepRunsTheDecodedInstruction := by
  intro s hrun
  have hfetch := fetch_eq_decode_codeAt s
  refine ⟨fun i rest hd => ?_, fun op hd => ?_, fun hd => ?_, fun o hd => ?_⟩ <;> rw [hd] at hfetch
  · exact step_of_fetch_ok hrun hfetch
  · exact step_of_fetch_error hrun hfetch
  · exact step_of_fetch_error hrun hfetch
  · exact step_of_fetch_error hrun hfetch

end Sys2Proof.Machine
end

section
/-! PROOFS. When the core has a step (spec/60_exceptions.md R147), what a faulting step leaves (R139), and where OutOfBounds
and InvalidRegister come from (R131, R132). -/

namespace Sys2Proof.Machine

variable {s t : State} {cause : Cause} {fpc : Pc} {info : Nat}

/-! ### A running core has a step (R166) -/

theorem exists_step_of_running (hrun : s.run = .running) : ∃ t, step s = .next t := by
  cases hf : fetch s with
  | ok i =>
    rw [step_of_fetch_ok hrun hf]
    exact exec_total i s
  | error e => exact ⟨_, step_of_fetch_error hrun hf⟩

/-- Settles O31: a running core runs what it fetched or takes the fetch's fault, and `step` asks for Running first. -/
theorem coreStepsExactlyWhileRunning : Obligations.CoreStepsExactlyWhileRunning :=
  ⟨fun _ => ⟨exists_step_of_running, fun ⟨_, h⟩ => (step_cases h).1⟩, exec_total⟩

theorem runSteps_of_not_running (h : s.run ≠ .running) (k : Nat) : runSteps k s = s := by
  obtain ⟨-, -, hstops⟩ := terminalStatesHaveNoStep s
  exact hstops h k

/-! ### Precise faults (R139, D10) -/

/-- A step that ends Faulted raised in the state it began in. -/
theorem eq_raise_of_faulted (h : step s = .next t) (hf : t.run = .faulted cause fpc info) :
    fpc = s.pc ∧ t = s.raise ⟨cause, info⟩ := by
  obtain ⟨hrun, ⟨i, -, -, hc⟩ | ⟨i, e, -, -, rfl⟩ | ⟨e, -, rfl⟩⟩ := step_outcome h
  · have := completes_not_faulted hrun hc
    simp [hf, RunState.isFaulted] at this
  · obtain ⟨hpc, rfl⟩ := raise_run_eq_faulted hf
    exact ⟨hpc, rfl⟩
  · obtain ⟨hpc, rfl⟩ := raise_run_eq_faulted hf
    exact ⟨hpc, rfl⟩

/-- Settles O29: the state after the fault is the old one raised, and a Faulted core has no step. -/
theorem faultsArePrecise : Obligations.FaultsArePrecise := by
  intro s t cause fpc info h hf
  obtain ⟨hrun, -⟩ := step_cases h
  obtain ⟨hpc, rfl⟩ := eq_raise_of_faulted h hf
  exact ⟨hrun, hpc, rfl, step_of_isFaulted rfl⟩

/-! ### OutOfBounds (R131) -/

theorem exec_call_outOfBounds {r : Byte} (hr : r.toNat < 8) (hpc : 256 ≤ s.pc.toNat + 2) :
    exec (.call r) s = .next (s.raise ⟨.outOfBounds, s.pc.toNat + 2⟩) := by
  have hret : returnAddress s = .error ⟨.outOfBounds, s.pc.toNat + 2⟩ := if_neg (by simpa using hpc)
  simp only [exec, execCall, checkReg_ok (r := ⟨r.toNat, hr⟩) rfl, hret, except_bind_ok, except_bind_error, commit_error]

theorem instrTrap_outOfBounds_iff {i : Instr} : InstrTrap i s ⟨.outOfBounds, info⟩ ↔
    info = s.pc.toNat + 2 ∧ 256 ≤ s.pc.toNat + 2 ∧ ∃ r : Byte, r.toNat < 8 ∧ i = .call r := by
  simp [InstrTrap]

/-- The three ways of R131 for a core whose next step is at `s.pc`. -/
def OutOfBoundsWay (s : State) : Prop :=
  s.pc.toNat = 256 ∨
    (∃ o, s.pc.toNat ≤ 255 ∧ decodeOpcode (s.mem.byteAt s.pc.toNat) = some o ∧ 255 < s.pc.toNat + o.arity) ∨
    (s.pc.toNat = 254 ∧ ∃ r : Byte, r.toNat ≤ 7 ∧ fetch s = .ok (.call r))

/-- An OutOfBounds of the fetched instruction is CALL's at 254, as CALL itself lies in memory; one of the fetch is at the
opcode or at an operand. -/
theorem outOfBoundsWay_of_faulted (hs : s.Inv) (h : step s = .next t) (hf : t.run = .faulted .outOfBounds fpc info) :
    info = 256 ∧ OutOfBoundsWay s := by
  obtain ⟨-, ⟨i, hi, htrap⟩ | herr⟩ := step_faulted_cases h hf
  · obtain ⟨hinfo, hpc, r, hr, rfl⟩ := instrTrap_outOfBounds_iff.mp htrap
    have hfits := fetch_ok_bound hi
    have hlen : (Instr.call r).length = 2 := rfl
    exact ⟨by omega, .inr (.inr ⟨by omega, r, by omega, hi⟩)⟩
  · have hle := hs.pc
    rcases fetch_error_cases herr with ⟨he, -⟩ | ⟨he, hpc⟩ | ⟨he, hpc, o, hop, hlen⟩ <;> cases he
    · exact ⟨by omega, .inl (by omega)⟩
    · exact ⟨rfl, .inr (.inl ⟨o, by omega, hop, by omega⟩)⟩

theorem step_of_outOfBoundsWay (hrun : s.run = .running) (h : OutOfBoundsWay s) :
    step s = .next (s.raise ⟨.outOfBounds, 256⟩) := by
  rcases h with hpc | ⟨o, hpc, hop, hlen⟩ | ⟨hpc, r, hr, hi⟩
  · exact hpc ▸ step_of_fetch_error hrun (fetch_of_pc_outside hpc.ge)
  · exact fetchFaults_of_decodeOpcode hop s hrun hpc rfl (by omega)
  · have hx := exec_call_outOfBounds (s := s) (r := r) (by omega) (by omega)
    rw [step_of_fetch_ok hrun hi, hx, hpc]

/-- Settles O28: each of the three ways raises at 256, and nothing else raises OutOfBounds. -/
theorem outOfBoundsArisesInThreeWays : Obligations.OutOfBoundsArisesInThreeWays := by
  intro s t hs hrun h fpc info
  refine ⟨fun hf => ⟨(eq_raise_of_faulted h hf).1, outOfBoundsWay_of_faulted hs h hf⟩, ?_⟩
  rintro ⟨rfl, rfl, hway⟩
  obtain rfl : t = s.raise ⟨.outOfBounds, 256⟩ := by simpa [h] using step_of_outOfBoundsWay hrun hway
  rfl

/-! ### InvalidRegister (R132) -/

theorem wellFormed_eq_all (i : Instr) : i.wellFormed = (registerOperands i).all validIndex := by
  cases i <;> simp [Instr.wellFormed, registerOperands]

/-- Every instruction that names a register checks it first. -/
theorem checkReg_bind_takesFault {r : Byte} (h : 8 ≤ r.toNat) (rest : Reg → Except Trap State) :
    TakesFault (commit s (checkReg r >>= rest)) s .invalidRegister r.toNat := by
  rw [checkReg_error h]
  rfl

theorem checkReg_bind_takesFault_find {r bad : Byte} (h : [r].find? (fun op => decide (8 ≤ op.toNat)) = some bad)
    (rest : Reg → Except Trap State) : TakesFault (commit s (checkReg r >>= rest)) s .invalidRegister bad.toNat := by
  obtain ⟨hr, rfl⟩ : 8 ≤ r.toNat ∧ r = bad := by simpa using h
  exact checkReg_bind_takesFault hr rest

theorem aluHandler_takesFault_find {op : AluOp} {a b bad : Byte}
    (h : [a, b].find? (fun op => decide (8 ≤ op.toNat)) = some bad) :
    TakesFault (commit s (aluHandler op a b s)) s .invalidRegister bad.toNat := by
  by_cases ha : 8 ≤ a.toNat
  · obtain rfl : a = bad := by simpa [ha] using h
    exact aluHandler_takesFault_op1 op ha
  · obtain ⟨hb, rfl⟩ : 8 ≤ b.toNat ∧ b = bad := by simpa [ha] using h
    exact aluHandler_takesFault_op2 op (by omega) hb

/-- The first operand of 8..255 is the one that is reported (R142). -/
theorem exec_takesFault_find {i : Instr} {bad : Byte}
    (h : (registerOperands i).find? (fun op => decide (8 ≤ op.toNat)) = some bad) :
    TakesFault (exec i s) s .invalidRegister bad.toNat := by
  cases i with
  | halt => cases h
  | ret => cases h
  | add a b => exact aluHandler_takesFault_find h
  | mul a b => exact aluHandler_takesFault_find h
  | cmp a b => exact aluHandler_takesFault_find h
  | loadImmediate r imm => exact checkReg_bind_takesFault_find h _
  | print r => exact checkReg_bind_takesFault_find h _
  | push r => exact checkReg_bind_takesFault_find h _
  | pop r => exact checkReg_bind_takesFault_find h _
  | call r => exact checkReg_bind_takesFault_find h _
  | jmp r => exact checkReg_bind_takesFault_find h _
  | jeq r => exact checkReg_bind_takesFault_find h _
  | jne r => exact checkReg_bind_takesFault_find h _

theorem badOperands_index {a b : Byte} (h : BadOperands a b s t) : ∃ op ∈ [a, b], 8 ≤ op.toNat := by
  rcases h with ⟨ha, -⟩ | ⟨-, hb, -⟩
  · exact ⟨a, by simp, ha⟩
  · exact ⟨b, by simp, hb⟩

theorem branchTo_index {taken : Bool} {r : Byte} (hrun : s.run = .running) (h : BranchTo taken r s t)
    (hf : t.run = .faulted cause fpc info) : ∃ op ∈ [r], 8 ≤ op.toNat := by
  rcases h with ⟨a, -, rfl⟩ | ⟨hr, -⟩
  · cases taken <;> cases hrun.symm.trans hf
  · exact ⟨r, by simp, hr⟩

/-- InvalidRegister comes from a register operand of 8..255: neither a completed instruction nor a stack or CALL fault leaves
that cause. -/
theorem exec_invalidRegister_index {i : Instr} (hrun : s.run = .running) (h : exec i s = .next t)
    (hf : t.run = .faulted .invalidRegister fpc info) : ∃ op ∈ registerOperands i, 8 ≤ op.toNat := by
  cases i with
  | halt =>
    obtain rfl := exec_halt_cases h
    cases hf
  | loadImmediate r imm =>
    rcases exec_loadImmediate_cases h with ⟨a, -, rfl⟩ | ⟨hr, -⟩
    · cases hrun.symm.trans hf
    · exact ⟨r, .head _, hr⟩
  | print r =>
    rcases exec_print_cases h with ⟨a, -, rfl⟩ | ⟨hr, -⟩
    · cases hrun.symm.trans hf
    · exact ⟨r, .head _, hr⟩
  | add a b =>
    rcases exec_add_cases h with ⟨ra, rb, -, -, rfl⟩ | hbad
    · cases hrun.symm.trans hf
    · exact badOperands_index hbad
  | mul a b =>
    rcases exec_mul_cases h with ⟨ra, rb, -, -, rfl⟩ | hbad
    · cases hrun.symm.trans hf
    · exact badOperands_index hbad
  | cmp a b =>
    rcases exec_cmp_cases h with ⟨ra, rb, -, -, rfl⟩ | hbad
    · cases hrun.symm.trans hf
    · exact badOperands_index hbad
  | push r =>
    rcases exec_push_cases h with ⟨a, -, -, rfl⟩ | ⟨hr, -⟩ | ⟨-, -, rfl⟩
    · cases hrun.symm.trans hf
    · exact ⟨r, .head _, hr⟩
    · cases hf
  | pop r =>
    rcases exec_pop_cases h with ⟨a, -, -, rfl⟩ | ⟨hr, -⟩ | ⟨-, -, rfl⟩
    · cases hrun.symm.trans hf
    · exact ⟨r, .head _, hr⟩
    · cases hf
  | call r =>
    rcases exec_call_cases h with ⟨a, -, -, -, rfl⟩ | ⟨hr, -⟩ | ⟨-, -, rfl⟩ | ⟨-, -, -, rfl⟩
    · cases hrun.symm.trans hf
    · exact ⟨r, .head _, hr⟩
    · cases hf
    · cases hf
  | ret =>
    rcases exec_ret_cases h with ⟨-, rfl⟩ | ⟨-, rfl⟩
    · cases hrun.symm.trans hf
    · cases hf
  | jmp r => exact branchTo_index hrun (exec_jmp_cases h) hf
  | jeq r => exact branchTo_index hrun (exec_jeq_cases h) hf
  | jne r => exact branchTo_index hrun (exec_jne_cases h) hf

/-- Settles O25: the first bad operand is reported, and without one there is nothing to report. -/
theorem invalidRegisterIffIndexOutOfRange : Obligations.InvalidRegisterIffIndexOutOfRange := by
  intro i s hrun
  refine ⟨fun bad h => ⟨?_, exec_takesFault_find h⟩, fun h => ?_⟩
  · have hbad : 8 ≤ bad.toNat := by simpa using List.find?_some h
    rw [wellFormed_eq_all, List.all_eq_false]
    exact ⟨bad, List.mem_of_find?_eq_some h, by simp [validIndex]; omega⟩
  · have hgood : ∀ op ∈ registerOperands i, op.toNat < 8 := by simpa using h
    obtain ⟨t, ht⟩ := exec_total i s
    refine ⟨?_, t, ht, fun fpc info hf => ?_⟩
    · rw [wellFormed_eq_all, List.all_eq_true]
      exact fun op hop => decide_eq_true (hgood op hop)
    · obtain ⟨op, hop, hge⟩ := exec_invalidRegister_index hrun ht hf
      exact absurd (hgood op hop) (by omega)

end Sys2Proof.Machine
end

section
/-! PROOFS. The legal state: pc after a step (spec/10_state.md R26, R27), FL (R28), the fault record
(spec/60_exceptions.md R131-R138), and the invariant made of them. -/

namespace Sys2Proof.Machine

variable {s t : State}

/-! ### pc after an instruction (R27, D6) -/

theorem advance_pc_toNat {n : Nat} (h : s.pc.toNat + (1 + n) ≤ 256) :
    (s.advance n).pc.toNat = s.pc.toNat + (1 + n) := by
  rw [advance_pc, BitVec.toNat_add, BitVec.toNat_ofNat]
  omega

/-- Where pc stands after instruction `i`: one instruction length on, or, for a control transfer, at a byte. -/
def PcFollows (i : Instr) (s t : State) : Prop :=
  (t.pc.toNat = s.pc.toNat + i.length ∧ (isTransfer i = true → ∃ r, i = .jeq r ∨ i = .jne r)) ∨
    (isTransfer i = true ∧ t.pc.toNat ≤ 255)

/-- Advancing over an instruction whose bytes all lie in memory does not wrap (D6). -/
theorem pcFollows_of_advance {i : Instr} {u : State} {n : Nat} (hu : u.pc = s.pc) (hn : 1 + n = i.length)
    (hi : isTransfer i = true → ∃ r, i = .jeq r ∨ i = .jne r) (h : s.pc.toNat + i.length ≤ 256) :
    PcFollows i s (u.advance n) := by
  refine .inl ⟨?_, hi⟩
  rw [advance_pc_toNat (by rw [hu]; omega), hu, hn]

theorem pcFollows_jump {i : Instr} {v : Byte} (u : State) (hi : isTransfer i = true) : PcFollows i s (u.jump v) :=
  .inr ⟨hi, by have := v.isLt; rw [jump_pc_toNat]; omega⟩

theorem badOperands_isFaulted {a b : Byte} (h : BadOperands a b s t) : t.run.isFaulted = true := by
  rcases h with ⟨-, rfl⟩ | ⟨-, -, rfl⟩ <;> rfl

theorem branchTo_pcFollows {i : Instr} {taken : Bool} {r : Byte} (h : BranchTo taken r s t) (hi : isTransfer i = true)
    (hlen : i.length = 2) (hfall : taken = false → ∃ r, i = .jeq r ∨ i = .jne r) (hb : s.pc.toNat + i.length ≤ 256) :
    PcFollows i s t ∨ t.run.isFaulted = true := by
  rcases h with ⟨a, -, rfl⟩ | ⟨-, rfl⟩
  · cases taken with
    | true => exact .inl (pcFollows_jump s hi)
    | false => exact .inl (pcFollows_of_advance rfl hlen.symm (fun _ => hfall rfl) hb)
  · exact .inr rfl

/-- An instruction whose bytes lie in memory moves pc past itself or to a byte, or it faults. -/
theorem exec_pcFollows {i : Instr} (h : exec i s = .next t) (hb : s.pc.toNat + i.length ≤ 256) :
    PcFollows i s t ∨ t.run.isFaulted = true := by
  cases i with
  | halt =>
    obtain rfl := exec_halt_cases h
    exact .inl (pcFollows_of_advance rfl rfl nofun hb)
  | loadImmediate r imm =>
    rcases exec_loadImmediate_cases h with ⟨a, -, rfl⟩ | ⟨-, rfl⟩
    · exact .inl (pcFollows_of_advance rfl rfl nofun hb)
    · exact .inr rfl
  | print r =>
    rcases exec_print_cases h with ⟨a, -, rfl⟩ | ⟨-, rfl⟩
    · exact .inl (pcFollows_of_advance rfl rfl nofun hb)
    · exact .inr rfl
  | add a b =>
    rcases exec_add_cases h with ⟨ra, rb, -, -, rfl⟩ | hbad
    · exact .inl (pcFollows_of_advance rfl rfl nofun hb)
    · exact .inr (badOperands_isFaulted hbad)
  | mul a b =>
    rcases exec_mul_cases h with ⟨ra, rb, -, -, rfl⟩ | hbad
    · exact .inl (pcFollows_of_advance rfl rfl nofun hb)
    · exact .inr (badOperands_isFaulted hbad)
  | cmp a b =>
    rcases exec_cmp_cases h with ⟨ra, rb, -, -, rfl⟩ | hbad
    · exact .inl (pcFollows_of_advance rfl rfl nofun hb)
    · exact .inr (badOperands_isFaulted hbad)
  | push r =>
    rcases exec_push_cases h with ⟨a, -, -, rfl⟩ | ⟨-, rfl⟩ | ⟨-, -, rfl⟩
    · exact .inl (pcFollows_of_advance rfl rfl nofun hb)
    · exact .inr rfl
    · exact .inr rfl
  | pop r =>
    rcases exec_pop_cases h with ⟨a, -, -, rfl⟩ | ⟨-, rfl⟩ | ⟨-, -, rfl⟩
    · exact .inl (pcFollows_of_advance rfl rfl nofun hb)
    · exact .inr rfl
    · exact .inr rfl
  | call r =>
    rcases exec_call_cases h with ⟨a, -, -, -, rfl⟩ | ⟨-, rfl⟩ | ⟨-, -, rfl⟩ | ⟨-, -, -, rfl⟩
    · exact .inl (pcFollows_jump _ rfl)
    · exact .inr rfl
    · exact .inr rfl
    · exact .inr rfl
  | ret =>
    rcases exec_ret_cases h with ⟨-, rfl⟩ | ⟨-, rfl⟩
    · exact .inl (pcFollows_jump _ rfl)
    · exact .inr rfl
  | jmp r => exact branchTo_pcFollows (exec_jmp_cases h) rfl rfl nofun hb
  | jeq r => exact branchTo_pcFollows (exec_jeq_cases h) rfl rfl (fun _ => ⟨r, .inl rfl⟩) hb
  | jne r => exact branchTo_pcFollows (exec_jne_cases h) rfl rfl (fun _ => ⟨r, .inr rfl⟩) hb

/-- A step that completes an instruction fetched it whole, so its pc follows. -/
theorem step_pcFollows {i : Instr} (hi : fetch s = .ok i) (h : step s = .next t) (hf : t.run.isFaulted = false) :
    PcFollows i s t := by
  obtain ⟨hrun, -⟩ := step_cases h
  have hx : exec i s = .next t := step_of_fetch_ok hrun hi ▸ h
  rcases exec_pcFollows hx (fetch_ok_bound hi) with hp | hfault
  · exact hp
  · simp [hf] at hfault

/-- Settles O37: the instruction lay below 256, so neither the sum nor the byte of a jump wraps. -/
theorem programCounterNeverWraps : Obligations.ProgramCounterNeverWraps := by
  intro s t i hi h hf
  rcases step_pcFollows hi h hf with ⟨hpc, hfall⟩ | ⟨htransfer, hpc⟩
  · exact ⟨fun _ => hpc, fun htransfer => .inr ⟨hfall htransfer, hpc⟩⟩
  · exact ⟨fun hno => by simp [htransfer] at hno, fun _ => .inl hpc⟩

/-! ### Each part of the invariant (R26, R28, R138) -/

theorem legalFlags_compareFlags (d c : Byte) : legalFlags (compareFlags d c) := by
  rcases compareFlags_cases d c with ⟨-, e⟩ | ⟨-, e⟩ | ⟨-, e⟩ <;> rw [e]
  · exact .inr (.inl rfl)
  · exact .inr (.inr (.inr rfl))
  · exact .inr (.inr (.inl rfl))

theorem pcFollows_le {i : Instr} (hb : s.pc.toNat + i.length ≤ 256) (h : PcFollows i s t) : t.pc.toNat ≤ 256 := by
  rcases h with ⟨h, -⟩ | ⟨-, h⟩ <;> omega

/-- An instruction fetched whole raises only what the spec describes: CALL's address is 256 because CALL itself ended
there (D7). -/
theorem legalFaultInfo_of_instrTrap {i : Instr} {e : Trap} (hb : s.pc.toNat + i.length ≤ 256) (h : InstrTrap i s e) :
    legalFaultInfo s.sp e.info e.cause := by
  rcases h with ⟨hc, hinfo⟩ | ⟨rfl, hpc, r, -, rfl⟩ | ⟨rfl, h0, -⟩ | ⟨rfl, hsp, -⟩
  · rw [hc]
    exact hinfo
  · have hlen : (Instr.call r).length = 2 := rfl
    show s.pc.toNat + 2 = 256
    omega
  · exact ⟨h0, rfl⟩
  · exact ⟨hsp, rfl⟩

/-- A fetch from a pc of at most 256 raises only what the spec describes. -/
theorem legalFaultInfo_of_fetch {e : Trap} (hpc : s.pc.toNat ≤ 256) (h : fetch s = .error e) :
    legalFaultInfo s.sp e.info e.cause := by
  rcases fetch_error_cases h with ⟨rfl, -, hd⟩ | ⟨rfl, hge⟩ | ⟨rfl, -⟩
  · refine ⟨Nat.le_of_lt_succ (BitVec.isLt _), ?_⟩
    rwa [BitVec.ofNat_toNat, BitVec.setWidth_eq]
  · exact le_antisymm hpc hge
  · rfl

/-- A fault changes RUN alone, so a legal record is all it needs. -/
theorem inv_raise {e : Trap} (hs : s.Inv) (h : legalFaultInfo s.sp e.info e.cause) : (s.raise e).Inv :=
  ⟨hs.mem, hs.pc, hs.fl, rfl, h⟩

/-- An instruction that completes keeps the state legal. -/
theorem inv_of_completes {i : Instr} (hs : s.Inv) (hrun : s.run = .running) (hpc : t.pc.toNat ≤ 256)
    (h : Completes i s t) : t.Inv := by
  refine ⟨?_, hpc, ?_, ?_⟩
  · rcases h.mem with e | ⟨r, v, -, e⟩ <;> rw [e]
    · exact hs.mem
    · exact update_wf hs.mem (pushAddress_lt s)
  · rcases h.fl with e | ⟨a, b, d, c, -, e⟩ <;> rw [e]
    · exact hs.fl
    · exact legalFlags_compareFlags d c
  · rcases h.run with ⟨-, e⟩ | ⟨-, e⟩ <;> simp [legalRun, e, hrun]

/-- Settles O38: a step completes its instruction, or takes the instruction's fault or the fetch's. -/
theorem legalStateIsKeptByEveryStep : Obligations.LegalStateIsKeptByEveryStep := by
  intro s t hs h
  obtain ⟨hrun, ⟨i, hi, -, hc⟩ | ⟨i, e, hi, he, rfl⟩ | ⟨e, he, rfl⟩⟩ := step_outcome h
  · have hfollows := step_pcFollows hi h (completes_not_faulted hrun hc)
    exact inv_of_completes hs hrun (pcFollows_le (fetch_ok_bound hi) hfollows) hc
  · exact inv_raise hs (legalFaultInfo_of_instrTrap (fetch_ok_bound hi) he)
  · exact inv_raise hs (legalFaultInfo_of_fetch hs.pc he)

/-- Settles O40: reset memory is empty, pc and FL are 0, and nothing has faulted. -/
theorem resetStateIsLegal : Obligations.ResetStateIsLegal :=
  ⟨rfl, by decide, .inl rfl, trivial⟩

/-- What every step keeps, the run loop keeps. -/
theorem runSteps_induction {p : State → Prop} (hstep : ∀ s t, p s → step s = .next t → p t) (k : Nat) (h : p s) :
    p (runSteps k s) := by
  induction k generalizing s with
  | zero => exact h
  | succ k ih =>
    by_cases hrun : s.run = .running
    · obtain ⟨t, ht⟩ := exists_step_of_running hrun
      rw [runSteps_next ht]
      exact ih (hstep s t h ht)
    · rwa [runSteps_of_not_running hrun]

end Sys2Proof.Machine
end

section
/-! PROOFS. The rules of the whole machine: what stores (spec/20_memory.md R48), what prints (spec/10_state.md R32), what
halts (spec/40_system.md R80), and what a program sees of FL (R33). -/

namespace Sys2Proof.Machine

variable {s t s' t' : State} {fl : Byte}

/-! ### Memory, OUT and Halted -/

/-- Settles O34: a completed instruction other than PUSH and CALL keeps memory, those two store at SP - 1, and a fault
stores nothing. -/
theorem onlyPushAndCallStore : Obligations.OnlyPushAndCallStore := by
  intro s t h
  obtain ⟨-, ⟨i, hi, -, hc⟩ | ⟨i, e, hi, -, rfl⟩ | ⟨e, he, rfl⟩⟩ := step_outcome h
  · rcases hc.mem with hm | ⟨r, v, hstore, hm⟩
    · exact ⟨fun _ => memKept_of_eq hm, fun _ => memKept_of_eq hm⟩
    · refine ⟨fun hno => ?_, fun _ => memKept_of_update hm⟩
      rcases hstore with rfl | rfl
      · exact absurd hi (hno r).1
      · exact absurd hi (hno r).2
  · exact ⟨fun _ => memKept_of_eq rfl, fun _ => memKept_of_eq rfl⟩
  · exact ⟨fun _ => memKept_of_eq rfl, fun _ => memKept_of_eq rfl⟩

theorem step_out (h : step s = .next t) :
    t.out = s.out ∨
      ∃ (r : Byte) (a : Reg), r.toNat = a.val ∧ fetch s = .ok (.print r) ∧ t.out = s.out ++ [s.reg a] := by
  obtain ⟨-, ⟨i, hi, -, hc⟩ | ⟨i, e, hi, -, rfl⟩ | ⟨e, he, rfl⟩⟩ := step_outcome h
  · rcases hc.out with ho | ⟨r, a, ha, rfl, ho⟩
    · exact .inl ho
    · exact .inr ⟨r, a, ha, hi, ho⟩
  · exact .inl rfl
  · exact .inl rfl

/-- Settles O35: every step keeps OUT or appends to it, so over a run OUT stays an extension of what it was. -/
theorem outputGrowsOnlyByPrint : Obligations.OutputGrowsOnlyByPrint := by
  refine ⟨fun s t => step_out, fun k s => ?_⟩
  refine runSteps_induction (p := fun u => s.out <+: u.out) (fun u v hu h => ?_) k (List.prefix_refl _)
  rcases step_out h with ho | ⟨r, a, -, -, ho⟩ <;> rw [ho]
  · exact hu
  · exact hu.trans (List.prefix_append _ _)

/-- Settles O36: HALT's own step halts, and no other instruction and no fault leaves RUN Halted. -/
theorem onlyHaltEntersHalted : Obligations.OnlyHaltEntersHalted := by
  intro s t h
  refine ⟨fun hhalted => ?_, fun hi => ?_⟩
  · obtain ⟨hrun, ⟨i, hi, -, hc⟩ | ⟨i, e, -, -, rfl⟩ | ⟨e, -, rfl⟩⟩ := step_outcome h
    · rcases hc.run with ⟨-, hr⟩ | ⟨rfl, -⟩
      · simp [hr, hrun] at hhalted
      · exact hi
    · cases hhalted
    · cases hhalted
  · obtain ⟨hrun, -⟩ := step_cases h
    rw [step_of_fetch_ok hrun hi] at h
    obtain rfl := exec_halt_cases h
    rfl

/-! ### FL bits 7:1 (R28, R29, R33) -/

theorem fetch_setFl (s : State) (fl : Byte) : fetch (s.setFl fl) = fetch s := rfl

/-- Two states that differ in the hidden bits alone differ in FL alone. -/
theorem eq_setFl_of_sameButHiddenFlags (h : SameButHiddenFlags s t) : t = s.setFl t.fl :=
  state_eq_of_regs h.mem (fun r => by simp only [State.reg, h.x, setFl_x]) h.pc rfl h.run h.out

theorem sameButHiddenFlags_setFl (hfl : fl.getLsbD 0 = s.fl.getLsbD 0) : SameButHiddenFlags s (s.setFl fl) :=
  ⟨rfl, rfl, rfl, rfl, rfl, hfl⟩

theorem sameButHiddenFlags_refl (s : State) : SameButHiddenFlags s s := ⟨rfl, rfl, rfl, rfl, rfl, rfl⟩

/-- A CMP does the same whatever FL was: it overwrites all of FL, or it faults and leaves FL. -/
theorem exec_cmp_setFl_same {a b : Byte} (hfl : fl.getLsbD 0 = s.fl.getLsbD 0) (h : exec (.cmp a b) s = .next t) :
    ∃ t', exec (.cmp a b) (s.setFl fl) = .next t' ∧ SameButHiddenFlags t t' := by
  rcases exec_cmp_cases h with ⟨ra, rb, ha, hb, rfl⟩ | ⟨ha, rfl⟩ | ⟨ha, hb, rfl⟩
  · exact ⟨_, exec_cmp_ok ha hb, sameButHiddenFlags_refl _⟩
  · exact ⟨_, aluHandler_takesFault_op1 .cmp ha, sameButHiddenFlags_setFl hfl⟩
  · exact ⟨_, aluHandler_takesFault_op2 .cmp (by omega) hb, sameButHiddenFlags_setFl hfl⟩

/-- Every instruction leaves two states that differ in the hidden bits alone so again. -/
theorem exec_setFl_same {i : Instr} (hfl : fl.getLsbD 0 = s.fl.getLsbD 0) (h : exec i s = .next t) :
    ∃ t', exec i (s.setFl fl) = .next t' ∧ SameButHiddenFlags t t' := by
  by_cases hcmp : ∃ a b, i = .cmp a b
  · obtain ⟨a, b, rfl⟩ := hcmp
    exact exec_cmp_setFl_same hfl h
  · have hne : ∀ a b, i ≠ .cmp a b := fun a b hi => hcmp ⟨a, b, hi⟩
    refine ⟨t.setFl fl, ?_, sameButHiddenFlags_setFl (by rw [hfl, exec_fl_of_ne_cmp hne h])⟩
    cases i with
    | jeq r => exact exec_jeq_setFl hfl h
    | jne r => exact exec_jne_setFl hfl h
    | _ => exact exec_setFl hne nofun nofun h

theorem step_sameButHiddenFlags (hst : SameButHiddenFlags s t) (h : step s = .next s') :
    ∃ t', step t = .next t' ∧ SameButHiddenFlags s' t' := by
  have ht := eq_setFl_of_sameButHiddenFlags hst
  have hfetch : fetch t = fetch s := by rw [ht, fetch_setFl]
  obtain ⟨hrun, ⟨i, hi, hx⟩ | ⟨e, he, rfl⟩⟩ := step_cases h
  · rw [step_of_fetch_ok (hst.run.trans hrun) (hfetch.trans hi), ht]
    exact exec_setFl_same hst.equal hx
  · refine ⟨_, step_of_fetch_error (hst.run.trans hrun) (hfetch.trans he), ?_⟩
    rw [ht]
    exact sameButHiddenFlags_setFl hst.equal

/-- Settles O33: the two runs step together, and stop together because RUN agrees. -/
theorem hiddenFlagBitsAreNeverObserved : Obligations.HiddenFlagBitsAreNeverObserved := by
  intro k
  induction k with
  | zero => exact fun s t hst => hst
  | succ k ih =>
    intro s t hst
    by_cases hrun : s.run = .running
    · obtain ⟨s', hs'⟩ := exists_step_of_running hrun
      obtain ⟨t', ht', hst'⟩ := step_sameButHiddenFlags hst hs'
      rw [runSteps_next hs', runSteps_next ht']
      exact ih s' t' hst'
    · have hrun' : t.run ≠ .running := hst.run ▸ hrun
      rwa [runSteps_of_not_running hrun, runSteps_of_not_running hrun']

end Sys2Proof.Machine
end

section
/-! PROOFS. HALT and PRINT (spec/40_system.md R80, R82), CMP (spec/41_alu.md R93), JEQ and JNE (spec/43_branch.md R121,
R122). -/

namespace Sys2Proof.Machine

variable {s t : State}

/-! ### HALT and PRINT -/

/-- Settles O11: HALT sets RUN and advances pc by one; the rest of the state is untouched. -/
theorem haltEntersHaltedAndAdvances : Obligations.HaltEntersHaltedAndAdvances :=
  ⟨rfl, fun s => ⟨_, exec_halt_ok s, rfl, rfl, fun _ _ => rfl, memKept_of_eq rfl, rfl, rfl⟩⟩

/-- Settles O13: after the register check PRINT emits the register's value and passes its operand. -/
theorem printAppendsTheRegisterValue : Obligations.PrintAppendsTheRegisterValue := by
  intro r
  refine ⟨rfl, fetchFaults_of_decodeOpcode (o := .print) rfl, fun s =>
    ⟨fun hr => checkReg_bind_takesFault hr _, fun a ha => ?_⟩⟩
  exact ⟨_, exec_print_ok ha, rfl, rfl, fun _ _ => rfl, memKept_of_eq rfl, rfl, rfl⟩

/-! ### CMP -/

/-- Settles O16: the operand faults are the ALU's, and the three orders are the three values of `compareFlags`. -/
theorem compareSetsExactlyOneFlag : Obligations.CompareSetsExactlyOneFlag := by
  intro a b
  refine ⟨rfl, fetchFaults_of_decodeOpcode (o := .cmp) rfl, fun s =>
    ⟨aluHandler_takesFault_op1 .cmp, aluHandler_takesFault_op2 .cmp, fun ra rb ha hb => ?_⟩⟩
  refine ⟨_, exec_cmp_ok ha hb, fun heq => ?_, compareFlags_greater, compareFlags_less, rfl, fun _ _ => rfl,
    memKept_of_eq rfl, rfl, rfl⟩
  rw [advance_fl, setFl_fl, BitVec.eq_of_toNat_eq heq, compareFlags_self]
  rfl

/-- CMP sets bit 0 of FL exactly for equal values (R28). -/
theorem compareFlags_getLsbD_zero (d c : Byte) : (compareFlags d c).getLsbD 0 = decide (d = c) := by
  rcases compareFlags_cases d c with ⟨rfl, e⟩ | ⟨hlt, e⟩ | ⟨hlt, e⟩ <;> rw [e]
  · simp [flagsEqual]
  · have hne : d ≠ c := by rintro rfl; omega
    simp [flagsLess, hne]
  · have hne : d ≠ c := by rintro rfl; omega
    simp [flagsGreater, hne]

/-! ### JEQ and JNE -/

theorem exec_jeq_taken {r : Byte} {a : Reg} (h : r.toNat = a.val) (he : s.equalSet = true) :
    exec (.jeq r) s = .next (s.jump (s.reg a)) := by
  rw [exec_jeq_ok h, if_pos he]

theorem exec_jeq_fallThrough {r : Byte} {a : Reg} (h : r.toNat = a.val) (he : s.equalSet = false) :
    exec (.jeq r) s = .next (s.advance 1) := by
  rw [exec_jeq_ok h, he, if_neg Bool.false_ne_true]

theorem exec_jne_taken {r : Byte} {a : Reg} (h : r.toNat = a.val) (he : s.equalSet = false) :
    exec (.jne r) s = .next (s.jump (s.reg a)) := by
  rw [exec_jne_ok h, he, if_neg Bool.false_ne_true]

theorem exec_jne_fallThrough {r : Byte} {a : Reg} (h : r.toNat = a.val) (he : s.equalSet = true) :
    exec (.jne r) s = .next (s.advance 1) := by
  rw [exec_jne_ok h, if_pos he]

/-- Settles O22: the index is checked first; then bit 0 chooses between the jump and the fall through, which change pc
alone. -/
theorem jumpEqualIsTakenOnBitZeroSet : Obligations.JumpEqualIsTakenOnBitZeroSet := by
  intro r
  refine ⟨rfl, fetchFaults_of_decodeOpcode (o := .jeq) rfl, fun s =>
    ⟨branchHandler_takesFault s.equalSet, fun a ha => ?_⟩⟩
  cases he : s.fl.getLsbD 0 with
  | true => exact ⟨_, exec_jeq_taken ha he, fun _ => jump_pc_toNat s _, nofun, fun _ _ => rfl,
      memKept_of_eq rfl, rfl, rfl, rfl⟩
  | false => exact ⟨_, exec_jeq_fallThrough ha he, nofun, fun _ => rfl, fun _ _ => rfl,
      memKept_of_eq rfl, rfl, rfl, rfl⟩

/-- Settles O23: as JEQ, with the two values of bit 0 exchanged. -/
theorem jumpNotEqualIsTakenOnBitZeroClear : Obligations.JumpNotEqualIsTakenOnBitZeroClear := by
  intro r
  refine ⟨rfl, fetchFaults_of_decodeOpcode (o := .jne) rfl, fun s =>
    ⟨branchHandler_takesFault (!s.equalSet), fun a ha => ?_⟩⟩
  cases he : s.fl.getLsbD 0 with
  | true => exact ⟨_, exec_jne_fallThrough ha he, nofun, fun _ => rfl, fun _ _ => rfl,
      memKept_of_eq rfl, rfl, rfl, rfl⟩
  | false => exact ⟨_, exec_jne_taken ha he, fun _ => jump_pc_toNat s _, nofun, fun _ _ => rfl,
      memKept_of_eq rfl, rfl, rfl, rfl⟩

/-- Settles O24: CMP leaves the registers and puts their equality in bit 0, by which both branches choose. -/
theorem branchFollowsTheLastComparison : Obligations.BranchFollowsTheLastComparison := by
  intro s a b r ra rb rr ha hb hr
  have hbit : ((s.setFl (compareFlags (s.reg ra) (s.reg rb))).advance 2).equalSet = decide (s.reg ra = s.reg rb) :=
    compareFlags_getLsbD_zero _ _
  by_cases heq : s.reg ra = s.reg rb
  · have hset := hbit.trans (decide_eq_true heq)
    exact ⟨_, _, _, exec_cmp_ok ha hb, exec_jeq_taken hr hset, exec_jne_fallThrough hr hset,
      fun _ => ⟨jump_pc_toNat _ _, rfl⟩, fun hne => absurd heq hne⟩
  · have hclear := hbit.trans (decide_eq_false heq)
    exact ⟨_, _, _, exec_cmp_ok ha hb, exec_jeq_fallThrough hr hclear, exec_jne_taken hr hclear,
      fun h => absurd h heq, fun _ => ⟨rfl, jump_pc_toNat _ _⟩⟩

end Sys2Proof.Machine
end

section
/-! PROOFS. PUSH, POP and CALL (spec/42_stack.md R103-R105), the range of SP (R101, R102), and a pushed byte that is fetched
next (spec/20_memory.md R57). -/

namespace Sys2Proof.Machine

variable {s t : State}

/-! ### SP around a push (R100) -/

theorem sp_ne_zero (h : s.sp.toNat ≠ 0) : s.sp ≠ 0 := fun h0 => h (sp_toNat_eq_zero.mpr h0)

/-- The state a push leaves, before pc moves. -/
def pushed (s : State) (v : Byte) : State := (s.setSp (s.sp - 1)).setMem (s.mem.update (pushAddress s) v)

theorem push_eq_pushed {v : Byte} (h : s.sp.toNat ≠ 0) : s.push v = .ok (pushed s v) := push_ok (sp_ne_zero h)

theorem pushed_sp_toNat (v : Byte) (h : s.sp.toNat ≠ 0) : (pushed s v).sp.toNat = s.sp.toNat - 1 := by
  rw [pushed, setMem_sp, setSp_sp, pushed_sp (sp_ne_zero h), pushAddress]

theorem pushed_regsKept (s : State) (v : Byte) : RegsKept [7] s (pushed s v) := regsKept_setReg s 7 _

theorem pushed_memKept (s : State) (v : Byte) : MemKept [pushAddress s] s (pushed s v) := memKept_of_update rfl

theorem pushed_memRead (v : Byte) (hwf : s.mem.wf = true) : (pushed s v).memRead (pushAddress s) = .ok v := by
  rw [memRead_ok (pushAddress_lt s), pushed, setMem_mem, byteAt_update hwf, if_pos rfl]

/-! ### PUSH, POP and CALL -/

theorem exec_push_pushed {r : Byte} {a : Reg} (h : r.toNat = a.val) (h0 : s.sp.toNat ≠ 0) :
    exec (.push r) s = .next ((pushed s (s.reg a)).advance 1) := exec_push_ok h (sp_ne_zero h0)

theorem exec_call_pushed {r : Byte} {a : Reg} (h : r.toNat = a.val) (hpc : s.pc.toNat + 2 < 256) (h0 : s.sp.toNat ≠ 0) :
    exec (.call r) s = .next ((pushed s (BitVec.ofNat 8 (s.pc.toNat + 2))).jump (s.reg a)) :=
  exec_call_ok h hpc (sp_ne_zero h0)

/-- Settles O17: the register check, the overflow check, then a push of the register's old value. -/
theorem pushStoresBelowTheStackPointer : Obligations.PushStoresBelowTheStackPointer := by
  intro r
  refine ⟨rfl, fetchFaults_of_decodeOpcode (o := .push) rfl, fun s =>
    ⟨fun hr => checkReg_bind_takesFault hr _, fun hr h0 => ?_, fun a ha h0 => ?_⟩⟩
  · exact exec_push_error (by omega) (sp_toNat_eq_zero.mp h0)
  · exact ⟨_, exec_push_pushed ha h0, pushed_sp_toNat (s.reg a) h0, pushed_memRead (s.reg a), rfl,
      pushed_regsKept s (s.reg a), pushed_memKept s (s.reg a), rfl, rfl, rfl⟩

/-- Settles O18: the register check, the underflow check, then SP goes up and the popped byte is written last. -/
theorem popLoadsTheTopOfTheStack : Obligations.PopLoadsTheTopOfTheStack := by
  intro r
  refine ⟨rfl, fetchFaults_of_decodeOpcode (o := .pop) rfl, fun s =>
    ⟨fun hr => checkReg_bind_takesFault hr _, fun hr hsp => exec_pop_error (by omega) hsp, fun a ha hsp => ?_⟩⟩
  refine ⟨_, exec_pop_ok ha hsp, ?_, fun ha7 => ?_, rfl, fun q hq => ?_, memKept_of_eq rfl, rfl, rfl, rfl⟩
  · rw [memRead_ok (by omega), advance_reg, setReg_reg, if_pos rfl]
  · rw [advance_sp, setReg_sp, if_neg ha7.symm, popped_sp hsp]
  · obtain ⟨hqa, hq7⟩ : q ≠ a ∧ q ≠ 7 := by simpa using hq
    rw [advance_reg, setReg_reg, if_neg hqa, setSp_reg, if_neg hq7]

/-- Settles O19: the register check, the return address, the overflow check, then a push of the return address and a jump to
the register's old value. -/
theorem callPushesTheReturnAddressAndJumps : Obligations.CallPushesTheReturnAddressAndJumps := by
  intro r
  refine ⟨rfl, fetchFaults_of_decodeOpcode (o := .call) rfl, fun s =>
    ⟨fun hr => checkReg_bind_takesFault hr _, fun hr hpc => exec_call_outOfBounds (by omega) hpc,
      fun hr hpc h0 => exec_call_error (by omega) (by omega) (sp_toNat_eq_zero.mp h0), fun a ha hpc h0 => ?_⟩⟩
  have hcall := exec_call_pushed ha (by omega) h0
  generalize hret : BitVec.ofNat 8 (s.pc.toNat + 2) = ret at hcall
  refine ⟨_, hcall, jump_pc_toNat _ _, pushed_sp_toNat ret h0, fun hwf => ⟨ret, pushed_memRead ret hwf, ?_⟩,
    pushed_regsKept s ret, pushed_memKept s ret, rfl, rfl, rfl⟩
  rw [← hret, BitVec.toNat_ofNat]
  omega

/-! ### The range of SP (R101, R102) -/

theorem push_eq_ok_iff {v : Byte} : s.push v = .ok t ↔ s.sp.toNat ≠ 0 ∧ pushed s v = t := by
  by_cases h0 : s.sp.toNat = 0
  · simp [push_error (sp_toNat_eq_zero.mp h0), h0]
  · simp [push_eq_pushed h0, h0]

theorem push_fails_iff {v : Byte} : (∃ e, s.push v = .error e) ↔ s.sp.toNat = 0 := by
  by_cases h0 : s.sp.toNat = 0
  · simp [push_error (sp_toNat_eq_zero.mp h0), h0]
  · simp [push_eq_pushed h0, h0]

theorem pop_eq_ok_iff {w : Byte} :
    s.pop = .ok (w, t) ↔ s.sp.toNat < 0xF4 ∧ s.mem.byteAt s.sp.toNat = w ∧ s.setSp (s.sp + 1) = t := by
  rcases pop_cases s with ⟨h, e⟩ | ⟨h, e⟩
  · simp [e, Nat.not_lt.mpr h]
  · simp [e, h]

theorem pop_fails_iff : (∃ e, s.pop = .error e) ↔ 0xF4 ≤ s.sp.toNat := by
  rcases pop_cases s with ⟨h, e⟩ | ⟨h, e⟩
  · simp [e, h]
  · simp [e, Nat.not_le.mpr h]

/-- Settles O47: a push and a pop move SP by one where they succeed, and each fails at its own end of the range alone. -/
theorem stackPointerStaysInItsRange : Obligations.StackPointerStaysInItsRange := by
  intro s v hlim
  refine ⟨fun t ht => ?_, fun w t ht => ?_, push_fails_iff, pop_fails_iff.trans (by omega)⟩
  · obtain ⟨h0, rfl⟩ := push_eq_ok_iff.mp ht
    have hdown := pushed_sp_toNat v h0
    omega
  · obtain ⟨hsp, -, rfl⟩ := pop_eq_ok_iff.mp ht
    have hup := popped_sp hsp
    omega

/-- Settles O48: a push from above 0xF4 leaves SP at 0xF4 or more, where pop underflows. -/
theorem popAboveTheInitialTopUnderflows : Obligations.PopAboveTheInitialTopUnderflows := by
  intro s v hsp
  have h0 : s.sp.toNat ≠ 0 := by omega
  have hdown := pushed_sp_toNat v h0
  refine ⟨_, push_eq_pushed h0, ?_⟩
  rw [pop_error (by omega), hdown]

/-! ### A pushed byte as the next opcode (R57, D16) -/

/-- The byte at pc decides the step of a running core: an illegal byte faults, an opcode without operands runs (R75). -/
theorem step_of_byte_at_pc {v : Byte} (hrun : t.run = .running) (hread : t.memRead t.pc.toNat = .ok v) :
    (decodeOpcode v = none → TakesFault (step t) t .illegalInstruction v.toNat) ∧
      ∀ o, decodeOpcode v = some o → o.arity = 0 → step t = exec (o.instr 0 0) t :=
  ⟨fun hd => step_of_fetch_error hrun (fetch_of_decodeOpcode_eq_none hread hd),
    fun _ hd harity => step_of_fetch_ok hrun (fetch_of_arity_zero hread hd harity)⟩

/-- Settles O49: PUSH stores at SP - 1, which is the pc it advances to, so the next fetch reads the pushed byte. -/
theorem storedCodeIsFetchedNext : Obligations.StoredCodeIsFetchedNext := by
  intro s r a ha hwf hrun h0 haddr
  have hpc : ((pushed s (s.reg a)).advance 1).pc.toNat = pushAddress s := by
    have hlt := pushAddress_lt s
    rw [advance_pc_toNat (by show s.pc.toNat + 2 ≤ 256; omega), haddr]
    rfl
  have hread : ((pushed s (s.reg a)).advance 1).memRead ((pushed s (s.reg a)).advance 1).pc.toNat = .ok (s.reg a) :=
    hpc ▸ pushed_memRead _ hwf
  exact ⟨_, exec_push_pushed ha h0, hread, step_of_byte_at_pc hrun hread⟩

end Sys2Proof.Machine
end

section
/-! PROOFS. Load, start and boot (spec/70_reset_and_hazards.md R160, R161), legality throughout a run, and the end of a run
(R167, spec/60_exceptions.md R148). -/

namespace Sys2Proof.Machine

variable {s t : State}

/-! ### The load port (R161) -/

/-- An image that fits is stored from its address upward. -/
theorem loadFrom_ok {a : Nat} {image : List Byte} (h : a + image.length ≤ 256) :
    loadFrom a image s = .ok (s.setMem (s.mem.storeBytes a image)) := by
  induction image generalizing a s with
  | nil => rfl
  | cons b rest ih =>
    rw [List.length_cons] at h
    have ha : a < 256 := by omega
    simp only [loadFrom, memWrite_ok ha, except_bind_ok, ih (a := a + 1) (by omega), setMem_mem, Memory.storeBytes,
      memSize_eq, if_pos ha]
    rfl

/-- An image that does not fit raises at the first byte that has no address. -/
theorem loadFrom_error {a : Nat} {image : List Byte} (ha : a ≤ 256) (h : 256 < a + image.length) :
    ∃ e, loadFrom a image s = .error e := by
  induction image generalizing a s with
  | nil => simp only [List.length_nil] at h; omega
  | cons b rest ih =>
    rw [List.length_cons] at h
    rcases Nat.lt_or_ge a 256 with hlt | hge
    · obtain ⟨e, he⟩ := ih (s := s.setMem (s.mem.update a b)) (a := a + 1) (by omega) (by omega)
      exact ⟨e, by simp only [loadFrom, memWrite_ok hlt, except_bind_ok, he]⟩
    · exact ⟨⟨.outOfBounds, a⟩, by simp only [loadFrom, memWrite_error hge, except_bind_error]⟩

theorem load_ok {image : List Byte} (h : image.length ≤ 256) :
    s.load image = some (s.setMem (s.mem.storeBytes 0 image)) := by
  simp only [State.load, loadFrom_ok (a := 0) (s := s) (by omega : 0 + image.length ≤ 256)]

theorem load_none {image : List Byte} (h : 256 < image.length) : s.load image = none := by
  obtain ⟨e, he⟩ := loadFrom_error (s := s) (a := 0) (image := image) (by omega) (by omega)
  simp only [State.load, he]

/-- Settles O42: the load fails from every state, from reset too, and boot starts only what was loaded. -/
theorem oversizedImageNeverStarts : Obligations.OversizedImageNeverStarts := by
  intro image s h
  exact ⟨load_none h, by simp only [boot, load_none h, Option.map_none]⟩

/-! ### Boot (R34, R160) -/

/-- A read of memory after bytes were stored from `a` upward, all inside memory. -/
theorem byteAt_storeBytes {m : Memory} {a b : Nat} {bs : List Byte} (hwf : m.wf = true) (h : a + bs.length ≤ 256) :
    (m.storeBytes a bs).byteAt b = if a ≤ b then bs.getD (b - a) (m.byteAt b) else m.byteAt b := by
  induction bs generalizing m a with
  | nil => simp [Memory.storeBytes]
  | cons v vs ih =>
    rw [List.length_cons] at h
    have ha : a < 256 := by omega
    rw [Memory.storeBytes, if_pos ha, ih (update_wf hwf ha) (by omega), byteAt_update hwf]
    rcases Nat.lt_trichotomy a b with hab | rfl | hab
    · obtain ⟨k, rfl⟩ := Nat.exists_eq_add_of_lt hab
      simp [show a + k + 1 - a = k + 1 by omega, show a + k + 1 - (a + 1) = k by omega, show ¬ a + k + 1 = a by omega,
        show a ≤ a + k + 1 by omega]
    · simp
    · simp [show ¬ a + 1 ≤ b by omega, show ¬ a ≤ b by omega, show ¬ b = a by omega]

/-- The state at the first fetch. -/
def booted (image : List Byte) : State := (State.reset.setMem (Memory.storeBytes [] 0 image)).start

theorem boot_eq_booted {image : List Byte} (h : image.length ≤ 256) : boot image = some (booted image) := by
  simp only [boot, load_ok h, Option.map_some]
  rfl

/-- Settles O41: the image is stored over the empty memory of reset, and nothing else of the reset state is changed. -/
theorem bootLeavesTheResetState : Obligations.BootLeavesTheResetState := by
  intro image h
  refine ⟨_, boot_eq_booted h, fun a ha => ?_, ?_, rfl, rfl, rfl, rfl, rfl⟩
  · rw [memRead_ok (by omega)]
    simp only [booted, start_mem, setMem_mem, byteAt_storeBytes (m := []) rfl (by omega : 0 + image.length ≤ 256),
      Nat.zero_le, if_true, Nat.sub_zero]
    rfl
  · show ∀ r : Reg, r.val ≤ 6 → State.reset.reg r = 0x00#8
    decide

theorem boot_eq_some {image : List Byte} (h : boot image = some s) : s = booted image := by
  rcases Nat.lt_or_ge 256 image.length with hlen | hlen
  · simp [boot, load_none hlen] at h
  · simpa [boot_eq_booted hlen, eq_comm] using h

theorem booted_inv (image : List Byte) : (booted image).Inv :=
  ⟨storeBytes_wf rfl 0 image, Nat.zero_le 256, .inl rfl, trivial⟩

/-- Settles O39: the booted state is legal and every step keeps it so. -/
theorem legalThroughoutEveryRun : Obligations.LegalThroughoutEveryRun := by
  intro image s h k
  rw [boot_eq_some h]
  exact runSteps_induction legalStateIsKeptByEveryStep k (booted_inv image)

/-! ### The end of a run (R167, R148) -/

theorem runSteps_add (k j : Nat) (s : State) : runSteps (k + j) s = runSteps j (runSteps k s) := by
  induction k generalizing s with
  | zero => rw [Nat.zero_add, runSteps_zero]
  | succ k ih =>
    by_cases hrun : s.run = .running
    · obtain ⟨t, ht⟩ := exists_step_of_running hrun
      rw [Nat.succ_add, runSteps_next ht, runSteps_next ht, ih]
    · simp only [runSteps_of_not_running hrun]

/-- Two runs from one state that have both ended have ended in the same state. -/
theorem runSteps_eq_of_ended {k j : Nat} (hk : (runSteps k s).run ≠ .running) (hj : (runSteps j s).run ≠ .running) :
    runSteps k s = runSteps j s := by
  calc runSteps k s = runSteps (k + j) s := by rw [runSteps_add, runSteps_of_not_running hk]
    _ = runSteps (j + k) s := by rw [Nat.add_comm]
    _ = runSteps j s := by rw [runSteps_add, runSteps_of_not_running hj]

theorem ended_cases {r : RunState} (h : r ≠ .running) : r = .halted ∨ r.isFaulted = true := by
  cases r with
  | running => exact absurd rfl h
  | halted => exact .inl rfl
  | faulted cause fpc info => exact .inr rfl

theorem halted_ne_running {r : RunState} (h : r = .halted) : r ≠ .running := by
  rw [h]; nofun

theorem isFaulted_ne_running {r : RunState} (h : r.isFaulted = true) : r ≠ .running := by
  rintro rfl; cases h

/-- Settles O43: a run that leaves Running is Halted or Faulted there, and stays in that state. -/
theorem runEndsInExactlyOneWay : Obligations.RunEndsInExactlyOneWay := by
  intro s
  refine ⟨?_, fun ⟨⟨k, hk⟩, j, hj⟩ => ?_, fun ⟨⟨k, hk⟩, hang⟩ => halted_ne_running hk (hang k),
    fun ⟨⟨k, hk⟩, hang⟩ => isFaulted_ne_running hk (hang k)⟩
  · by_cases hang : Hangs s
    · exact .inr (.inr hang)
    · obtain ⟨k, hk⟩ := not_forall.mp hang
      rcases ended_cases hk with h | h
      · exact .inl ⟨k, h⟩
      · exact .inr (.inl ⟨k, h⟩)
  · rw [← runSteps_eq_of_ended (halted_ne_running hk) (isFaulted_ne_running hj), hk] at hj
    cases hj

theorem nonzeroCode_ne_zero (choice : Int) : nonzeroCode choice ≠ 0 := by
  unfold nonzeroCode
  split <;> omega

/-- Settles O44: the classes are read off RUN, and a runtime fault's code is never 0 whatever the host chose. -/
theorem terminalStatusMapsToExitClass : Obligations.TerminalStatusMapsToExitClass :=
  ⟨rfl, rfl, fun _ _ _ => rfl, nonzeroCode_ne_zero _⟩

end Sys2Proof.Machine
end
